-- ==== Sys2Proof/Word.lean ====
section
/-!
DEFINITION. The words of the machine: 32-bit words, bytes and register indices
(spec/00_scope.md R8, R10; spec/10_state.md R21).
-/

namespace Sys2Proof

/-- A 32-bit word (R8, R10): `toNat` is the spec's `unsigned`, `toInt` its `signed`. -/
abbrev Word := BitVec 32

/-- One byte of memory (R39). -/
abbrev Byte := BitVec 8

/-- The index of a general register, 0 to 31 (R21): every field value names a register. -/
abbrev Reg := Fin 32

end Sys2Proof
end

