-- ==== Sys2Proof/Syntax.lean ====
section
/-!
DEFINITION. The instructions: one constructor per row of spec/opcode_table.json, which is the table
of spec/30_encoding.md R96. Immediates stand at the width the encoding gives them (R88 to R93);
`Machine/Operands.lean` extends or places them.
-/

namespace Sys2Proof

/-- The 40 instructions of R2 and R96, with the operands of R104. -/
inductive Instr where
  -- integer register-register operations (R120)
  /-- ADD, R121 -/
  | add (rd rs1 rs2 : Reg)
  /-- SUB, R122 -/
  | sub (rd rs1 rs2 : Reg)
  /-- SLL, R123 -/
  | sll (rd rs1 rs2 : Reg)
  /-- SLT, R124 -/
  | slt (rd rs1 rs2 : Reg)
  /-- SLTU, R125 -/
  | sltu (rd rs1 rs2 : Reg)
  /-- XOR, R126 -/
  | xor (rd rs1 rs2 : Reg)
  /-- SRL, R127 -/
  | srl (rd rs1 rs2 : Reg)
  /-- SRA, R128 -/
  | sra (rd rs1 rs2 : Reg)
  /-- OR, R129 -/
  | or (rd rs1 rs2 : Reg)
  /-- AND, R130 -/
  | and (rd rs1 rs2 : Reg)
  -- integer register-immediate operations (R140)
  /-- ADDI, R141 -/
  | addi (rd rs1 : Reg) (imm : BitVec 12)
  /-- SLTI, R142 -/
  | slti (rd rs1 : Reg) (imm : BitVec 12)
  /-- SLTIU, R143 -/
  | sltiu (rd rs1 : Reg) (imm : BitVec 12)
  /-- XORI, R144 -/
  | xori (rd rs1 : Reg) (imm : BitVec 12)
  /-- ORI, R145 -/
  | ori (rd rs1 : Reg) (imm : BitVec 12)
  /-- ANDI, R146 -/
  | andi (rd rs1 : Reg) (imm : BitVec 12)
  /-- SLLI, R147 -/
  | slli (rd rs1 : Reg) (shamt : BitVec 5)
  /-- SRLI, R148 -/
  | srli (rd rs1 : Reg) (shamt : BitVec 5)
  /-- SRAI, R149 -/
  | srai (rd rs1 : Reg) (shamt : BitVec 5)
  -- load and store (R160)
  /-- LW `rd, imm(rs1)`, R161 -/
  | lw (rd rs1 : Reg) (imm : BitVec 12)
  /-- SW `rs2, imm(rs1)`, R162 -/
  | sw (rs1 rs2 : Reg) (imm : BitVec 12)
  -- conditional branches (R170)
  /-- BEQ, R172 -/
  | beq (rs1 rs2 : Reg) (off : BitVec 13)
  /-- BNE, R173 -/
  | bne (rs1 rs2 : Reg) (off : BitVec 13)
  /-- BLT, R174 -/
  | blt (rs1 rs2 : Reg) (off : BitVec 13)
  /-- BGE, R175 -/
  | bge (rs1 rs2 : Reg) (off : BitVec 13)
  /-- BLTU, R176 -/
  | bltu (rs1 rs2 : Reg) (off : BitVec 13)
  /-- BGEU, R177 -/
  | bgeu (rs1 rs2 : Reg) (off : BitVec 13)
  -- jumps (R180)
  /-- JAL, R181 -/
  | jal (rd : Reg) (off : BitVec 21)
  /-- JALR `rd, imm(rs1)`, R182 -/
  | jalr (rd rs1 : Reg) (imm : BitVec 12)
  -- upper-immediate forms (R190)
  /-- LUI, R191 -/
  | lui (rd : Reg) (imm : BitVec 20)
  /-- AUIPC, R192 -/
  | auipc (rd : Reg) (imm : BitVec 20)
  -- multiply/divide operations (R200)
  /-- MUL, R201 -/
  | mul (rd rs1 rs2 : Reg)
  /-- MULH, R202 -/
  | mulh (rd rs1 rs2 : Reg)
  /-- MULHSU, R203 -/
  | mulhsu (rd rs1 rs2 : Reg)
  /-- MULHU, R204 -/
  | mulhu (rd rs1 rs2 : Reg)
  /-- DIV, R205 -/
  | div (rd rs1 rs2 : Reg)
  /-- DIVU, R206 -/
  | divu (rd rs1 rs2 : Reg)
  /-- REM, R207 -/
  | rem (rd rs1 rs2 : Reg)
  /-- REMU, R208 -/
  | remu (rd rs1 rs2 : Reg)
  -- system/halt
  /-- EBREAK, R220 -/
  | ebreak
  deriving DecidableEq, Repr

end Sys2Proof
end

