-- ==== Sys2Proof/WellFormed.lean ====
section
/-!
DEFINITION. Which instructions an encoding can carry. The only constraint the formats put on an
operand beyond its width is the implicit zero bit 0 of branch and JAL offsets
(spec/30_encoding.md R90, R92).
-/

namespace Sys2Proof

/-- The 13-bit branch offset and the 21-bit JAL offset have bit 0 zero (R90, R92). -/
def evenOffset {n : Nat} (off : BitVec n) : Bool := !off.getLsbD 0

/-- An instruction some word encodes: its offset, if it has one, is even (R90, R92). -/
def Instr.wellFormed : Instr → Bool
  | .beq _ _ off => evenOffset off
  | .bne _ _ off => evenOffset off
  | .blt _ _ off => evenOffset off
  | .bge _ _ off => evenOffset off
  | .bltu _ _ off => evenOffset off
  | .bgeu _ _ off => evenOffset off
  | .jal _ off => evenOffset off
  | .add _ _ _ | .sub _ _ _ | .sll _ _ _ | .slt _ _ _ | .sltu _ _ _ => true
  | .xor _ _ _ | .srl _ _ _ | .sra _ _ _ | .or _ _ _ | .and _ _ _ => true
  | .addi _ _ _ | .slti _ _ _ | .sltiu _ _ _ | .xori _ _ _ | .ori _ _ _ | .andi _ _ _ => true
  | .slli _ _ _ | .srli _ _ _ | .srai _ _ _ => true
  | .lw _ _ _ | .sw _ _ _ => true
  | .jalr _ _ _ | .lui _ _ | .auipc _ _ => true
  | .mul _ _ _ | .mulh _ _ _ | .mulhsu _ _ _ | .mulhu _ _ _ => true
  | .div _ _ _ | .divu _ _ _ | .rem _ _ _ | .remu _ _ _ => true
  | .ebreak => true

/-- The multiply/divide class, which decodes only when `M_ENABLED` is true (R99, R200). -/
def Instr.isMulDiv : Instr → Bool
  | .mul _ _ _ | .mulh _ _ _ | .mulhsu _ _ _ | .mulhu _ _ _ => true
  | .div _ _ _ | .divu _ _ _ | .rem _ _ _ | .remu _ _ _ => true
  | .add _ _ _ | .sub _ _ _ | .sll _ _ _ | .slt _ _ _ | .sltu _ _ _ => false
  | .xor _ _ _ | .srl _ _ _ | .sra _ _ _ | .or _ _ _ | .and _ _ _ => false
  | .addi _ _ _ | .slti _ _ _ | .sltiu _ _ _ | .xori _ _ _ | .ori _ _ _ | .andi _ _ _ => false
  | .slli _ _ _ | .srli _ _ _ | .srai _ _ _ => false
  | .lw _ _ _ | .sw _ _ _ => false
  | .beq _ _ _ | .bne _ _ _ | .blt _ _ _ | .bge _ _ _ | .bltu _ _ _ | .bgeu _ _ _ => false
  | .jal _ _ | .jalr _ _ _ | .lui _ _ | .auipc _ _ => false
  | .ebreak => false

/-- The instruction may be executed by a machine whose toggle is `m` (R227): the multiply/divide
class needs `M_ENABLED`, nothing else depends on it. -/
def Instr.enabledBy (i : Instr) (m : Bool) : Bool := !i.isMulDiv || m

end Sys2Proof
end

