-- ==== Sys2Proof/Decode.lean ====
section
/-!
DEFINITION. The decoder, total on every word (spec/30_encoding.md R80 to R103), and the encoder
written from the same formats. All bit positions are those of R81 to R96.
-/

namespace Sys2Proof

/-! ## Bytes and words (little-endian, spec/20_memory.md R55) -/

/-- Byte `k` of a word, byte 0 the least significant (R54). -/
def byteOf (v : Word) (k : Nat) : Byte := v.extractLsb' (8 * k) 8

/-- The word whose bytes at increasing addresses are `b0 b1 b2 b3` (R53). -/
def wordOfBytes (b0 b1 b2 b3 : Byte) : Word := b3 ++ b2 ++ b1 ++ b0

/-- The four bytes of a word in memory order (R55). -/
def bytesOfWord (v : Word) : List Byte := [byteOf v 0, byteOf v 1, byteOf v 2, byteOf v 3]

/-! ## Fields (R81) and immediates at their encoded width (R88 to R93) -/

/-- A 5-bit register field names the register with that index (R21). -/
def regOf (b : BitVec 5) : Reg := b.toFin

/-- The 5-bit field that names a register. -/
def regBits (r : Reg) : BitVec 5 := BitVec.ofNat 5 r.val

def opcodeOf (w : Word) : BitVec 7 := w.extractLsb' 0 7
def rdOf (w : Word) : Reg := regOf (w.extractLsb' 7 5)
def funct3Of (w : Word) : BitVec 3 := w.extractLsb' 12 3
def rs1Of (w : Word) : Reg := regOf (w.extractLsb' 15 5)
def rs2Of (w : Word) : Reg := regOf (w.extractLsb' 20 5)
def funct7Of (w : Word) : BitVec 7 := w.extractLsb' 25 7

/-- `shamt = w[24:20]` (R93). -/
def shamtOf (w : Word) : BitVec 5 := w.extractLsb' 20 5

/-- `w[31:20]`, the I-type immediate (R88). -/
def immIOf (w : Word) : BitVec 12 := w.extractLsb' 20 12

/-- `w[31:25] ++ w[11:7]`, the S-type immediate (R89). -/
def immSOf (w : Word) : BitVec 12 := w.extractLsb' 25 7 ++ w.extractLsb' 7 5

/-- `w[31] ++ w[7] ++ w[30:25] ++ w[11:8] ++ 0`, the B-type immediate (R90). -/
def immBOf (w : Word) : BitVec 13 :=
  w.extractLsb' 31 1 ++ w.extractLsb' 7 1 ++ w.extractLsb' 25 6 ++ w.extractLsb' 8 4 ++ 0#1

/-- `w[31:12]`, the U-type immediate (R91). -/
def immUOf (w : Word) : BitVec 20 := w.extractLsb' 12 20

/-- `w[31] ++ w[19:12] ++ w[20] ++ w[30:21] ++ 0`, the J-type immediate (R92). -/
def immJOf (w : Word) : BitVec 21 :=
  w.extractLsb' 31 1 ++ w.extractLsb' 12 8 ++ w.extractLsb' 20 1 ++ w.extractLsb' 21 10 ++ 0#1

/-! ## The decoder -/

/-- Why a word is no instruction. The fault report carries none of these names (R255): they are
the model's own, for the reader (DESIGN CHOICE, safe: log 9). -/
inductive DecodeReject where
  /-- The major opcode is none of the ten of R95 (R97, R101, R224). Safe: the spec's own fault. -/
  | unknownOpcode
  /-- The opcode is known and the minor fields match no row of R96 (R98, R102, R166, R225, R226).
  Safe: the spec's own fault. -/
  | unknownMinor
  /-- A multiply/divide word while `M_ENABLED` is false (R99). Safe: the spec's own fault. -/
  | extensionDisabled
  /-- Fewer than four bytes were given to `decodeBytes`. The machine never does so: a fetch reads
  four bytes or faults (R232). Safe. -/
  | truncated
  deriving DecidableEq, Repr

/-- What the decoder answers (R103): an instruction, or DecodeFault. -/
inductive DecodeResult where
  | instr (i : Instr)
  | decodeFault (why : DecodeReject)
  deriving DecidableEq, Repr

/-- OP, `opcode = 0110011` (R103). -/
def decodeOp (m : Bool) (w : Word) : DecodeResult :=
  match funct7Of w with
  | 0b0000000#7 =>
    match funct3Of w with
    | 0b000#3 => .instr (.add (rdOf w) (rs1Of w) (rs2Of w))
    | 0b001#3 => .instr (.sll (rdOf w) (rs1Of w) (rs2Of w))
    | 0b010#3 => .instr (.slt (rdOf w) (rs1Of w) (rs2Of w))
    | 0b011#3 => .instr (.sltu (rdOf w) (rs1Of w) (rs2Of w))
    | 0b100#3 => .instr (.xor (rdOf w) (rs1Of w) (rs2Of w))
    | 0b101#3 => .instr (.srl (rdOf w) (rs1Of w) (rs2Of w))
    | 0b110#3 => .instr (.or (rdOf w) (rs1Of w) (rs2Of w))
    | 0b111#3 => .instr (.and (rdOf w) (rs1Of w) (rs2Of w))
  | 0b0100000#7 =>
    match funct3Of w with
    | 0b000#3 => .instr (.sub (rdOf w) (rs1Of w) (rs2Of w))
    | 0b101#3 => .instr (.sra (rdOf w) (rs1Of w) (rs2Of w))
    | _ => .decodeFault .unknownMinor
  | 0b0000001#7 =>
    if m then
      match funct3Of w with
      | 0b000#3 => .instr (.mul (rdOf w) (rs1Of w) (rs2Of w))
      | 0b001#3 => .instr (.mulh (rdOf w) (rs1Of w) (rs2Of w))
      | 0b010#3 => .instr (.mulhsu (rdOf w) (rs1Of w) (rs2Of w))
      | 0b011#3 => .instr (.mulhu (rdOf w) (rs1Of w) (rs2Of w))
      | 0b100#3 => .instr (.div (rdOf w) (rs1Of w) (rs2Of w))
      | 0b101#3 => .instr (.divu (rdOf w) (rs1Of w) (rs2Of w))
      | 0b110#3 => .instr (.rem (rdOf w) (rs1Of w) (rs2Of w))
      | 0b111#3 => .instr (.remu (rdOf w) (rs1Of w) (rs2Of w))
    else .decodeFault .extensionDisabled
  | _ => .decodeFault .unknownMinor

/-- OP-IMM, `opcode = 0010011` (R103). -/
def decodeOpImm (w : Word) : DecodeResult :=
  match funct3Of w with
  | 0b000#3 => .instr (.addi (rdOf w) (rs1Of w) (immIOf w))
  | 0b010#3 => .instr (.slti (rdOf w) (rs1Of w) (immIOf w))
  | 0b011#3 => .instr (.sltiu (rdOf w) (rs1Of w) (immIOf w))
  | 0b100#3 => .instr (.xori (rdOf w) (rs1Of w) (immIOf w))
  | 0b110#3 => .instr (.ori (rdOf w) (rs1Of w) (immIOf w))
  | 0b111#3 => .instr (.andi (rdOf w) (rs1Of w) (immIOf w))
  | 0b001#3 =>
    match funct7Of w with
    | 0b0000000#7 => .instr (.slli (rdOf w) (rs1Of w) (shamtOf w))
    | _ => .decodeFault .unknownMinor
  | 0b101#3 =>
    match funct7Of w with
    | 0b0000000#7 => .instr (.srli (rdOf w) (rs1Of w) (shamtOf w))
    | 0b0100000#7 => .instr (.srai (rdOf w) (rs1Of w) (shamtOf w))
    | _ => .decodeFault .unknownMinor

/-- BRANCH, `opcode = 1100011` (R103). -/
def decodeBranch (w : Word) : DecodeResult :=
  match funct3Of w with
  | 0b000#3 => .instr (.beq (rs1Of w) (rs2Of w) (immBOf w))
  | 0b001#3 => .instr (.bne (rs1Of w) (rs2Of w) (immBOf w))
  | 0b100#3 => .instr (.blt (rs1Of w) (rs2Of w) (immBOf w))
  | 0b101#3 => .instr (.bge (rs1Of w) (rs2Of w) (immBOf w))
  | 0b110#3 => .instr (.bltu (rs1Of w) (rs2Of w) (immBOf w))
  | 0b111#3 => .instr (.bgeu (rs1Of w) (rs2Of w) (immBOf w))
  | _ => .decodeFault .unknownMinor

/-- The decoder (R103): it reads the word and `M_ENABLED` and nothing else (R94). -/
def decode (m : Bool) (w : Word) : DecodeResult :=
  match opcodeOf w with
  | 0b0110011#7 => decodeOp m w
  | 0b0010011#7 => decodeOpImm w
  | 0b0000011#7 =>
    if funct3Of w = 0b010#3 then .instr (.lw (rdOf w) (rs1Of w) (immIOf w))
    else .decodeFault .unknownMinor
  | 0b0100011#7 =>
    if funct3Of w = 0b010#3 then .instr (.sw (rs1Of w) (rs2Of w) (immSOf w))
    else .decodeFault .unknownMinor
  | 0b1100011#7 => decodeBranch w
  | 0b1101111#7 => .instr (.jal (rdOf w) (immJOf w))
  | 0b1100111#7 =>
    if funct3Of w = 0b000#3 then .instr (.jalr (rdOf w) (rs1Of w) (immIOf w))
    else .decodeFault .unknownMinor
  | 0b0110111#7 => .instr (.lui (rdOf w) (immUOf w))
  | 0b0010111#7 => .instr (.auipc (rdOf w) (immUOf w))
  | 0b1110011#7 =>
    if w = 0x00100073#32 then .instr .ebreak else .decodeFault .unknownMinor
  | _ => .decodeFault .unknownOpcode

/-- The decoder on the bytes of an instruction, lowest address first (R55, R80). -/
def decodeBytes (m : Bool) : List Byte → DecodeResult
  | b0 :: b1 :: b2 :: b3 :: _ => decode m (wordOfBytes b0 b1 b2 b3)
  | _ => .decodeFault .truncated

/-! ## The encoder -/

/-- R-type format (R82). -/
def encodeR (f7 : BitVec 7) (rs2 rs1 : Reg) (f3 : BitVec 3) (rd : Reg) (op : BitVec 7) : Word :=
  f7 ++ regBits rs2 ++ regBits rs1 ++ f3 ++ regBits rd ++ op

/-- I-type format (R83). -/
def encodeI (imm : BitVec 12) (rs1 : Reg) (f3 : BitVec 3) (rd : Reg) (op : BitVec 7) : Word :=
  imm ++ regBits rs1 ++ f3 ++ regBits rd ++ op

/-- I-type format of the shift-immediates: `w[31:25]` acts as a `funct7` (R83). -/
def encodeShift (f7 : BitVec 7) (shamt : BitVec 5) (rs1 : Reg) (f3 : BitVec 3) (rd : Reg)
    (op : BitVec 7) : Word :=
  f7 ++ shamt ++ regBits rs1 ++ f3 ++ regBits rd ++ op

/-- S-type format (R84). -/
def encodeS (imm : BitVec 12) (rs2 rs1 : Reg) (f3 : BitVec 3) (op : BitVec 7) : Word :=
  imm.extractLsb' 5 7 ++ regBits rs2 ++ regBits rs1 ++ f3 ++ imm.extractLsb' 0 5 ++ op

/-- B-type format (R85). -/
def encodeB (off : BitVec 13) (rs2 rs1 : Reg) (f3 : BitVec 3) (op : BitVec 7) : Word :=
  off.extractLsb' 12 1 ++ off.extractLsb' 5 6 ++ regBits rs2 ++ regBits rs1 ++ f3 ++
    off.extractLsb' 1 4 ++ off.extractLsb' 11 1 ++ op

/-- U-type format (R86). -/
def encodeU (imm : BitVec 20) (rd : Reg) (op : BitVec 7) : Word := imm ++ regBits rd ++ op

/-- J-type format (R87). -/
def encodeJ (off : BitVec 21) (rd : Reg) (op : BitVec 7) : Word :=
  off.extractLsb' 20 1 ++ off.extractLsb' 1 10 ++ off.extractLsb' 11 1 ++ off.extractLsb' 12 8 ++
    regBits rd ++ op

/-- The word of an instruction (R82 to R87, R96). Bit 0 of an offset has no place in a word, so an
ill-formed instruction is encoded without it. -/
def encode : Instr → Word
  | .add rd rs1 rs2 => encodeR 0b0000000#7 rs2 rs1 0b000#3 rd 0b0110011#7
  | .sub rd rs1 rs2 => encodeR 0b0100000#7 rs2 rs1 0b000#3 rd 0b0110011#7
  | .sll rd rs1 rs2 => encodeR 0b0000000#7 rs2 rs1 0b001#3 rd 0b0110011#7
  | .slt rd rs1 rs2 => encodeR 0b0000000#7 rs2 rs1 0b010#3 rd 0b0110011#7
  | .sltu rd rs1 rs2 => encodeR 0b0000000#7 rs2 rs1 0b011#3 rd 0b0110011#7
  | .xor rd rs1 rs2 => encodeR 0b0000000#7 rs2 rs1 0b100#3 rd 0b0110011#7
  | .srl rd rs1 rs2 => encodeR 0b0000000#7 rs2 rs1 0b101#3 rd 0b0110011#7
  | .sra rd rs1 rs2 => encodeR 0b0100000#7 rs2 rs1 0b101#3 rd 0b0110011#7
  | .or rd rs1 rs2 => encodeR 0b0000000#7 rs2 rs1 0b110#3 rd 0b0110011#7
  | .and rd rs1 rs2 => encodeR 0b0000000#7 rs2 rs1 0b111#3 rd 0b0110011#7
  | .addi rd rs1 imm => encodeI imm rs1 0b000#3 rd 0b0010011#7
  | .slti rd rs1 imm => encodeI imm rs1 0b010#3 rd 0b0010011#7
  | .sltiu rd rs1 imm => encodeI imm rs1 0b011#3 rd 0b0010011#7
  | .xori rd rs1 imm => encodeI imm rs1 0b100#3 rd 0b0010011#7
  | .ori rd rs1 imm => encodeI imm rs1 0b110#3 rd 0b0010011#7
  | .andi rd rs1 imm => encodeI imm rs1 0b111#3 rd 0b0010011#7
  | .slli rd rs1 shamt => encodeShift 0b0000000#7 shamt rs1 0b001#3 rd 0b0010011#7
  | .srli rd rs1 shamt => encodeShift 0b0000000#7 shamt rs1 0b101#3 rd 0b0010011#7
  | .srai rd rs1 shamt => encodeShift 0b0100000#7 shamt rs1 0b101#3 rd 0b0010011#7
  | .lw rd rs1 imm => encodeI imm rs1 0b010#3 rd 0b0000011#7
  | .sw rs1 rs2 imm => encodeS imm rs2 rs1 0b010#3 0b0100011#7
  | .beq rs1 rs2 off => encodeB off rs2 rs1 0b000#3 0b1100011#7
  | .bne rs1 rs2 off => encodeB off rs2 rs1 0b001#3 0b1100011#7
  | .blt rs1 rs2 off => encodeB off rs2 rs1 0b100#3 0b1100011#7
  | .bge rs1 rs2 off => encodeB off rs2 rs1 0b101#3 0b1100011#7
  | .bltu rs1 rs2 off => encodeB off rs2 rs1 0b110#3 0b1100011#7
  | .bgeu rs1 rs2 off => encodeB off rs2 rs1 0b111#3 0b1100011#7
  | .jal rd off => encodeJ off rd 0b1101111#7
  | .jalr rd rs1 imm => encodeI imm rs1 0b000#3 rd 0b1100111#7
  | .lui rd imm => encodeU imm rd 0b0110111#7
  | .auipc rd imm => encodeU imm rd 0b0010111#7
  | .mul rd rs1 rs2 => encodeR 0b0000001#7 rs2 rs1 0b000#3 rd 0b0110011#7
  | .mulh rd rs1 rs2 => encodeR 0b0000001#7 rs2 rs1 0b001#3 rd 0b0110011#7
  | .mulhsu rd rs1 rs2 => encodeR 0b0000001#7 rs2 rs1 0b010#3 rd 0b0110011#7
  | .mulhu rd rs1 rs2 => encodeR 0b0000001#7 rs2 rs1 0b011#3 rd 0b0110011#7
  | .div rd rs1 rs2 => encodeR 0b0000001#7 rs2 rs1 0b100#3 rd 0b0110011#7
  | .divu rd rs1 rs2 => encodeR 0b0000001#7 rs2 rs1 0b101#3 rd 0b0110011#7
  | .rem rd rs1 rs2 => encodeR 0b0000001#7 rs2 rs1 0b110#3 rd 0b0110011#7
  | .remu rd rs1 rs2 => encodeR 0b0000001#7 rs2 rs1 0b111#3 rd 0b0110011#7
  | .ebreak => encodeI 0x001#12 0 0b000#3 0 0b1110011#7

/-! ## The table's words -/

/-- The instruction word whose low `nbits` bits are `w` and whose other bits are zero. -/
def tableWord (nbits w : Nat) : Word := BitVec.ofNat 32 (w % 2 ^ nbits)

/-- What the decoder reads, with the multiply/divide extension enabled, from an opcode-table word
laid out in memory order. -/
def decodeTableWord (nbits w : Nat) : Option Instr :=
  match decodeBytes true (bytesOfWord (tableWord nbits w)) with
  | .instr i => some i
  | .decodeFault _ => none

end Sys2Proof
end

