-- ==== Sys2Proof/Config.lean ====
section
/-!
DEFINITION. The configuration the host fixes when it constructs a machine
(spec/00_scope.md R9, spec/10_state.md R38). The fifth parameter, `MEM_INIT`, is the memory image
`State.resetWith` takes. There is no free value on this hardware: nothing has the treatment
`any value` at run time (spec/93_implementation_defined.md part 1, R238), so this file declares no
opaque constant.
-/

namespace Sys2Proof

/-- The four configuration registers (R38), written once by the host. -/
structure Config where
  /-- `MEM_SIZE`: the number of bytes of memory (R9, R39). -/
  memSize : Nat
  /-- `ENTRY_PC`: the pc after reset (R32). -/
  entryPc : Word
  /-- `M_ENABLED`: whether the multiply/divide words decode (R99). -/
  mEnabled : Bool
  /-- `BUDGET`: how many instructions may retire (R231). -/
  budget : Nat
  deriving DecidableEq, Repr

/-- The range R9 gives the configuration: `0 <= MEM_SIZE <= 2^32`; the other three are free. -/
abbrev Config.Valid (c : Config) : Prop := c.memSize ≤ 2 ^ 32

/-- The configuration of `State.reset`. DESIGN CHOICE, unsafe (log 2): the host supplies all four
and the spec fixes none; this one has the largest memory R9 allows, the extension enabled and a
budget far above any run. No statement about every machine rests on it. -/
def Config.chosen : Config :=
  { memSize := 2 ^ 32, entryPc := 0#32, mEnabled := true, budget := 2 ^ 64 }

end Sys2Proof
end

