-- ==== Sys2Proof/Machine/State.lean ====
section
/-!
DEFINITION. The machine state (spec/10_state.md R20 to R43), its reset value, and the two kinds of
stop of a step.
-/

namespace Sys2Proof.Machine

/-- The four conditions (R250): a closed list of names without numbers. -/
inductive Condition where
  /-- A word that is no instruction, or a disabled one (R251). -/
  | decodeFault
  /-- An access to an address that is not a multiple of 4 (R252). -/
  | alignmentFault
  /-- An access outside memory (R253). -/
  | outOfBoundsFault
  /-- The instruction budget is used up (R254). -/
  | budgetExceeded
  deriving DecidableEq, Repr

/-- The run status (R34). The source's "halted flag" is `status = halted` (R20, C5). -/
inductive Status where
  | running
  | halted
  | faulted
  | budgetExceeded
  deriving DecidableEq, Repr

/-- The report made when a run ends otherwise than by a halt (R35, R255). -/
structure Report where
  /-- which condition occurred -/
  condition : Condition
  /-- `rpc`: the pc at which it occurred -/
  rpc : Word
  /-- `rinstr`: the instruction word, or none when none was fetched -/
  rinstr : Option Word
  deriving DecidableEq, Repr

/-- Memory (R39): the bytes that differ from `unlistedByte`, as (address, byte) pairs with strictly
rising addresses. An address below `MEM_SIZE` that is not listed holds `unlistedByte`. -/
abbrev Memory := List Host.Cell

/-- What an address below `MEM_SIZE` that the list does not name holds. DESIGN CHOICE, unsafe where
a statement fixes `State.reset`'s memory (log 3): the spec gives no byte of `MEM_INIT`. Every
`MEM_INIT` is some list of this form, so nothing about `State.resetWith` rests on the number. -/
def unlistedByte : Byte := 0x00#8

/-- The Machine State (R20) with the configuration registers (R38, log 1). There is no flag, mode,
control or status register, accumulator, reservation, interrupt or hidden state (R33, R37, R41, R42,
R262, R265). -/
structure State where
  /-- the 32 general registers (R21); slot 0 is never read (R22, log 8) -/
  regs : Vector Word 32
  /-- the program counter (R28) -/
  pc : Word
  /-- the memory (R39) -/
  mem : Memory
  /-- the run status (R34) -/
  status : Status
  /-- the report (R35), present exactly when the run ended by a condition -/
  report : Option Report
  /-- the number of retired instructions (R36), of no fixed width -/
  icount : Nat
  /-- the configuration (R38); no step writes it -/
  cfg : Config
  deriving DecidableEq, Repr

/-- Why a step answers no state. The spec's own faults are NOT here: they are next states that
write the status and the report (R258). These are the machine that has ended, from which no step is
defined (R34, R221, R230; spec/93 U16 `stuck`; log 4). -/
inductive Fault where
  /-- Raised by `step` on a halted machine: "no further fetch occurs" (R220, R221). Safe. -/
  | alreadyHalted
  /-- Raised by `step` on a faulted machine: a faulted run is "never resumed" (R34). Safe. -/
  | alreadyFaulted
  /-- Raised by `step` on a machine whose budget ended the run (R231, R258). Safe. -/
  | alreadyBudgetExceeded
  deriving DecidableEq, Repr

/-- Why an instruction has no meaning here. -/
inductive Refusal where
  /-- The instruction of that mnemonic is not modelled. No arm of `exec` answers it. Safe. -/
  | notModelled (mnemonic : String)
  deriving DecidableEq, Repr

/-- The machine right after construction from a configuration and a memory image `MEM_INIT`
(R43, R280, R281): registers zero, pc the entry address, running, no report, nothing retired.
It checks nothing (R282). -/
def State.resetWith (c : Config) (image : Memory) : State :=
  { regs := Vector.replicate 32 0#32
    pc := c.entryPc
    mem := image
    status := .running
    report := none
    icount := 0
    cfg := c }

/-- One construction: the configuration `Config.chosen` (log 2) and the image with nothing listed
(log 3). A program is loaded from outside (R240, log 7). -/
def State.reset : State := State.resetWith Config.chosen []

end Sys2Proof.Machine
end

