-- ==== Sys2Proof/Machine/Ops.lean ====
section
/-!
DEFINITION. The named operations over registers and memory, retiring an instruction, and taking a
condition, which on this hardware is the end of the run (spec/60_exceptions.md R258). There is no
return from a condition: no instruction and no host action resumes a machine (R221, R258).
-/

namespace Sys2Proof.Machine

/-! ## Registers -/

/-- Register read (R22): `x[0]` is 0, every other register is the word last written. -/
def State.readReg (s : State) (r : Reg) : Word := if r = 0 then 0#32 else s.regs[r]

/-- Register write (R23): a write to `x[0]` is discarded. -/
def State.writeReg (s : State) (r : Reg) (v : Word) : State :=
  if r = 0 then s else { s with regs := s.regs.set r.val v r.isLt }

/-! ## Memory -/

/-- Strictly rising addresses. -/
abbrev Memory.Rising (m : Memory) : Prop := m.Pairwise (fun c d => c.1 < d.1)

/-- The canonical form: addresses strictly rise and no listed byte is `unlistedByte`, so that equal
memories are equal lists. -/
abbrev Memory.Wf (m : Memory) : Prop := m.Rising ∧ ∀ c ∈ m, c.2 ≠ unlistedByte

/-- The byte at an address (R39). -/
def Memory.byteAt : Memory → Nat → Byte
  | [], _ => unlistedByte
  | (k, b) :: m, a => if k = a then b else Memory.byteAt m a

/-- Puts a byte in its place among rising addresses, over any byte that stands there. -/
def Memory.insertByte : Memory → Nat → Byte → Memory
  | [], a, v => [(a, v)]
  | (k, b) :: m, a, v =>
    if a < k then (a, v) :: (k, b) :: m
    else if a = k then (a, v) :: m
    else (k, b) :: Memory.insertByte m a v

/-- Writes one byte, keeping the canonical form: `unlistedByte` is written by removing the entry. -/
def Memory.setByte (m : Memory) (a : Nat) (v : Byte) : Memory :=
  if v = unlistedByte then m.filter (fun c => c.1 ≠ a) else Memory.insertByte m a v

/-- The little-endian word of the four bytes at `a` to `a + 3` (R53, R55). -/
def Memory.wordAt (m : Memory) (a : Nat) : Word :=
  wordOfBytes (Memory.byteAt m a) (Memory.byteAt m (a + 1)) (Memory.byteAt m (a + 2))
    (Memory.byteAt m (a + 3))

/-- The four bytes of a word, little-endian, at `a` to `a + 3` (R54, R55). -/
def Memory.setWord (m : Memory) (a : Nat) (v : Word) : Memory :=
  Memory.setByte (Memory.setByte (Memory.setByte (Memory.setByte m a (byteOf v 0))
    (a + 1) (byteOf v 1)) (a + 2) (byteOf v 2)) (a + 3) (byteOf v 3)

/-- `CheckAccess(addr)` (R52): alignment first, then bounds in natural numbers (D14). -/
def State.checkAccess (s : State) (addr : Word) : Option Condition :=
  if addr.toNat % 4 ≠ 0 then some .alignmentFault
  else if s.cfg.memSize < addr.toNat + 4 then some .outOfBoundsFault
  else none

/-- `MemRead(addr, 4)` (R53). -/
def State.memRead (s : State) (addr : Word) : Except Condition Word :=
  match s.checkAccess addr with
  | some c => .error c
  | none => .ok (Memory.wordAt s.mem addr.toNat)

/-- `MemWrite(addr, 4, v)` (R54). -/
def State.memWrite (s : State) (addr v : Word) : Except Condition State :=
  match s.checkAccess addr with
  | some c => .error c
  | none => .ok { s with mem := Memory.setWord s.mem addr.toNat v }

/-! ## Retiring (R235) -/

/-- The instruction retires with `pc <- target` and is counted (R29, R36, R235). -/
def State.retireTo (s : State) (target : Word) : State :=
  { s with pc := target, icount := s.icount + 1 }

/-- The instruction retires to the next one, `pc <- (pc + 4) mod 2^32` (R29, R31). -/
def State.retireNext (s : State) : State := s.retireTo (s.pc + 4#32)

/-- The instruction writes `x[rd]` and retires to the next one (R120, R140, R190, R200). -/
def State.writeRetire (s : State) (rd : Reg) (v : Word) : State := (s.writeReg rd v).retireNext

/-! ## The end of a run -/

/-- The status a condition gives the run (R255). -/
def Condition.endStatus : Condition → Status
  | .decodeFault => .faulted
  | .alignmentFault => .faulted
  | .outOfBoundsFault => .faulted
  | .budgetExceeded => .budgetExceeded

/-- Taking a condition (R255, R256, R258): the status and the report are written, nothing else
changes, and control goes nowhere. -/
def State.endRun (s : State) (c : Condition) (w : Option Word) : State :=
  { s with status := c.endStatus, report := some ⟨c, s.pc, w⟩ }

/-- The halt (R220): EBREAK is counted, the machine freezes, registers, memory and pc stay. -/
def State.halt (s : State) : State := { s with icount := s.icount + 1, status := .halted }

/-- The result the host reads (R242): `x[10]`, defined only for a halted machine. -/
def State.result (s : State) : Option Word :=
  if s.status = .halted then some (s.readReg 10) else none

end Sys2Proof.Machine
end

