-- ==== Sys2Proof/Machine/Operands.lean ====
section
/-!
DEFINITION. The operand forms: immediates as 32-bit words (spec/30_encoding.md R88 to R93), the
effective address of LW and SW (spec/20_memory.md R51), and the targets of branches and jumps.
-/

namespace Sys2Proof.Machine

/-- `immI` and `immS`: 12 bits, sign-extended (R88, R89). -/
def imm12 (imm : BitVec 12) : Word := imm.signExtend 32

/-- `immB`: 13 bits, sign-extended (R90). -/
def immB (off : BitVec 13) : Word := off.signExtend 32

/-- `immJ`: 21 bits, sign-extended (R92). -/
def immJ (off : BitVec 21) : Word := off.signExtend 32

/-- `immU`: 20 bits placed in the upper bits (R91). -/
def immU (imm : BitVec 20) : Word := imm ++ 0#12

/-- The low 5 bits of a register, the amount of SLL, SRL and SRA (R93, R123). -/
def shiftAmount (v : Word) : Nat := (v.extractLsb' 0 5).toNat

/-- `ea = (x[rs1] + imm) mod 2^32` (R51, R160). -/
def State.effAddr (s : State) (rs1 : Reg) (imm : BitVec 12) : Word := s.readReg rs1 + imm12 imm

/-- `(pc + immB) mod 2^32`, from the branch's own address (R171). -/
def State.branchTarget (s : State) (off : BitVec 13) : Word := s.pc + immB off

/-- `(pc + immJ) mod 2^32`, from the JAL's own address (R181). -/
def State.jalTarget (s : State) (off : BitVec 21) : Word := s.pc + immJ off

/-- `((x[rs1] + immI) mod 2^32) & 0xFFFFFFFE` (R182). -/
def State.jalrTarget (s : State) (rs1 : Reg) (imm : BitVec 12) : Word :=
  (s.readReg rs1 + imm12 imm) &&& 0xFFFFFFFE#32

/-- The link value `(pc + 4) mod 2^32` (R180). -/
def State.linkValue (s : State) : Word := s.pc + 4#32

end Sys2Proof.Machine
end

