-- ==== Sys2Proof/Machine/Flags.lean ====
section
/-!
DEFINITION. The comparisons. The hardware has no flags or condition codes (spec/10_state.md R33):
a comparison is made inside SLT, SLTU, SLTI, SLTIU, whose result is the word 0 or 1 (R124, R125),
or inside a branch (R171).
-/

namespace Sys2Proof.Machine

/-- `signed(a) < signed(b)` (R124, R174). -/
def lessSigned (a b : Word) : Bool := a.slt b

/-- `unsigned(a) < unsigned(b)` (R125, R176). -/
def lessUnsigned (a b : Word) : Bool := a.ult b

/-- The word 1 or the word 0, nothing else (R124). -/
def boolWord (c : Bool) : Word := if c then 1#32 else 0#32

end Sys2Proof.Machine
end

