-- ==== Sys2Proof/Machine/Branch.lean ====
section
/-!
DEFINITION. The conditional branches (spec/43_branches.md R170 to R179). The target is not checked here:
the next fetch checks it (R178, R261).
-/

namespace Sys2Proof.Machine

/-- The pc rule of every branch (R171): to `pc + immB` if taken, else to `pc + 4`; no register is
written. -/
def State.branch (s : State) (taken : Bool) (off : BitVec 13) : State :=
  if taken then s.retireTo (s.branchTarget off) else s.retireNext

/-- BEQ (R172): `taken when x[rs1] = x[rs2]`. -/
def execBeq (rs1 rs2 : Reg) (off : BitVec 13) (s : State) : Host.Outcome State Fault Refusal :=
  .next (s.branch (s.readReg rs1 == s.readReg rs2) off)

/-- BNE (R173): `taken when x[rs1] != x[rs2]`. -/
def execBne (rs1 rs2 : Reg) (off : BitVec 13) (s : State) : Host.Outcome State Fault Refusal :=
  .next (s.branch (s.readReg rs1 != s.readReg rs2) off)

/-- BLT (R174): `taken when signed(x[rs1]) < signed(x[rs2])`. -/
def execBlt (rs1 rs2 : Reg) (off : BitVec 13) (s : State) : Host.Outcome State Fault Refusal :=
  .next (s.branch (lessSigned (s.readReg rs1) (s.readReg rs2)) off)

/-- BGE (R175): `taken when signed(x[rs1]) >= signed(x[rs2])`. -/
def execBge (rs1 rs2 : Reg) (off : BitVec 13) (s : State) : Host.Outcome State Fault Refusal :=
  .next (s.branch (!lessSigned (s.readReg rs1) (s.readReg rs2)) off)

/-- BLTU (R176): `taken when unsigned(x[rs1]) < unsigned(x[rs2])`. -/
def execBltu (rs1 rs2 : Reg) (off : BitVec 13) (s : State) : Host.Outcome State Fault Refusal :=
  .next (s.branch (lessUnsigned (s.readReg rs1) (s.readReg rs2)) off)

/-- BGEU (R177): `taken when unsigned(x[rs1]) >= unsigned(x[rs2])`. -/
def execBgeu (rs1 rs2 : Reg) (off : BitVec 13) (s : State) : Host.Outcome State Fault Refusal :=
  .next (s.branch (!lessUnsigned (s.readReg rs1) (s.readReg rs2)) off)

end Sys2Proof.Machine
end

