-- ==== Sys2Proof/Machine/Jump.lean ====
section
/-!
DEFINITION. The jumps (spec/44_jumps.md R180 to R187). The target is not checked here: the next fetch
checks it (R186, R261).
-/

namespace Sys2Proof.Machine

/-- JAL (R181): `x[rd] <- (pc + 4) mod 2^32; pc <- (pc + immJ) mod 2^32`. -/
def execJal (rd : Reg) (off : BitVec 21) (s : State) : Host.Outcome State Fault Refusal :=
  .next ((s.writeReg rd s.linkValue).retireTo (s.jalTarget off))

/-- JALR (R182): `x[rd] <- (pc + 4) mod 2^32; pc <- ((x[rs1] + immI) mod 2^32) & 0xFFFFFFFE`. The
target is formed from the state before the link is written (R183). -/
def execJalr (rd rs1 : Reg) (imm : BitVec 12) (s : State) : Host.Outcome State Fault Refusal :=
  .next ((s.writeReg rd s.linkValue).retireTo (s.jalrTarget rs1 imm))

end Sys2Proof.Machine
end

