-- ==== Sys2Proof/Machine/LoadStore.lean ====
section
/-!
DEFINITION. The word load and store (spec/42_load_store.md R160 to R166). A fault of the data address ends the
run with the report of R255, whose word is the instruction's own encoding (log 6).
-/

namespace Sys2Proof.Machine

/-- LW (R161): `x[rd] <- MemRead(ea, 4)`; a fault of the access leaves everything but the status and
the report (R160, R163, R256). -/
def execLw (rd rs1 : Reg) (imm : BitVec 12) (s : State) : Host.Outcome State Fault Refusal :=
  match s.memRead (s.effAddr rs1 imm) with
  | .error c => .next (s.endRun c (some (encode (.lw rd rs1 imm))))
  | .ok v => .next (s.writeRetire rd v)

/-- SW (R162): `MemWrite(ea, 4, x[rs2])`; a fault of the access leaves everything but the status and
the report (R160, R163, R256). -/
def execSw (rs1 rs2 : Reg) (imm : BitVec 12) (s : State) : Host.Outcome State Fault Refusal :=
  match s.memWrite (s.effAddr rs1 imm) (s.readReg rs2) with
  | .error c => .next (s.endRun c (some (encode (.sw rs1 rs2 imm))))
  | .ok t => .next t.retireNext

end Sys2Proof.Machine
end

