-- ==== Sys2Proof/Machine/Alu.lean ====
section
/-!
DEFINITION. The results of the arithmetic instructions, each a function of two words
(spec/40_integer_register_register.md, spec/46_multiply_divide.md). Every result is the
mathematical one reduced modulo 2^32 (R131); nothing faults and no flag is set.
-/

namespace Sys2Proof.Machine

/-- `(a + b) mod 2^32` (R121). -/
def aluAdd (a b : Word) : Word := a + b

/-- `(a - b) mod 2^32` (R122). -/
def aluSub (a b : Word) : Word := a - b

/-- `a << k` for an amount 0 to 31 (R123, R147). -/
def aluSll (a : Word) (k : Nat) : Word := a <<< k

/-- `a >>u k` (R127, R148). -/
def aluSrl (a : Word) (k : Nat) : Word := a >>> k

/-- `a >>s k` (R128, R149). -/
def aluSra (a : Word) (k : Nat) : Word := a.sshiftRight k

/-- Set less than, signed (R124, R142). -/
def aluSlt (a b : Word) : Word := boolWord (lessSigned a b)

/-- Set less than, unsigned (R125, R143). -/
def aluSltu (a b : Word) : Word := boolWord (lessUnsigned a b)

/-- Bitwise exclusive or (R126, R144). -/
def aluXor (a b : Word) : Word := a ^^^ b

/-- Bitwise or (R129, R145). -/
def aluOr (a b : Word) : Word := a ||| b

/-- Bitwise and (R130, R146). -/
def aluAnd (a b : Word) : Word := a &&& b

/-- `(a * b) mod 2^32` (R201). -/
def aluMul (a b : Word) : Word := a * b

/-- Bits 63 to 32 of an exact product: `floor(p / 2^32) mod 2^32` (R202 to R204). -/
def highHalf (p : Int) : Word := BitVec.ofInt 32 (p / 2 ^ 32)

/-- Multiply high, signed by signed (R202). -/
def aluMulh (a b : Word) : Word := highHalf (a.toInt * b.toInt)

/-- Multiply high, signed by unsigned (R203). -/
def aluMulhsu (a b : Word) : Word := highHalf (a.toInt * (b.toNat : Int))

/-- Multiply high, unsigned by unsigned (R204). -/
def aluMulhu (a b : Word) : Word := highHalf ((a.toNat : Int) * (b.toNat : Int))

/-- Divide, signed (R205): all ones for a zero divisor, `-2^31` on overflow, else rounded toward
zero. -/
def aluDiv (a b : Word) : Word :=
  if b.toInt = 0 then BitVec.ofInt 32 (-1)
  else if a.toInt = -2 ^ 31 ∧ b.toInt = -1 then BitVec.ofInt 32 (-2 ^ 31)
  else BitVec.ofInt 32 (a.toInt.tdiv b.toInt)

/-- Divide, unsigned (R206). -/
def aluDivu (a b : Word) : Word :=
  if b.toNat = 0 then 0xFFFFFFFF#32 else BitVec.ofNat 32 (a.toNat / b.toNat)

/-- Remainder, signed (R207): the dividend for a zero divisor, 0 on overflow, else with the sign of
the dividend. -/
def aluRem (a b : Word) : Word :=
  if b.toInt = 0 then a
  else if a.toInt = -2 ^ 31 ∧ b.toInt = -1 then 0#32
  else BitVec.ofInt 32 (a.toInt - b.toInt * a.toInt.tdiv b.toInt)

/-- Remainder, unsigned (R208). -/
def aluRemu (a b : Word) : Word :=
  if b.toNat = 0 then a else BitVec.ofNat 32 (a.toNat % b.toNat)

end Sys2Proof.Machine
end

