-- ==== Sys2Proof/Machine/MulDiv.lean ====
section
/-!
DEFINITION. The multiply/divide operations (spec/46_multiply_divide.md R200 to R210). Whether their words
decode is the decoder's matter (R99); no operand faults (R200).
-/

namespace Sys2Proof.Machine

/-- MUL (R201): `x[rd] <- (x[rs1] * x[rs2]) mod 2^32`. -/
def execMul (rd rs1 rs2 : Reg) (s : State) : Host.Outcome State Fault Refusal :=
  .next (s.writeRetire rd (aluMul (s.readReg rs1) (s.readReg rs2)))

/-- MULH (R202): `x[rd] <- bits 63 to 32 of signed(x[rs1]) * signed(x[rs2])`. -/
def execMulh (rd rs1 rs2 : Reg) (s : State) : Host.Outcome State Fault Refusal :=
  .next (s.writeRetire rd (aluMulh (s.readReg rs1) (s.readReg rs2)))

/-- MULHSU (R203): `x[rd] <- bits 63 to 32 of signed(x[rs1]) * unsigned(x[rs2])`. -/
def execMulhsu (rd rs1 rs2 : Reg) (s : State) : Host.Outcome State Fault Refusal :=
  .next (s.writeRetire rd (aluMulhsu (s.readReg rs1) (s.readReg rs2)))

/-- MULHU (R204): `x[rd] <- bits 63 to 32 of unsigned(x[rs1]) * unsigned(x[rs2])`. -/
def execMulhu (rd rs1 rs2 : Reg) (s : State) : Host.Outcome State Fault Refusal :=
  .next (s.writeRetire rd (aluMulhu (s.readReg rs1) (s.readReg rs2)))

/-- DIV (R205): `x[rd] <- x[rs1] / x[rs2], signed, toward zero`. -/
def execDiv (rd rs1 rs2 : Reg) (s : State) : Host.Outcome State Fault Refusal :=
  .next (s.writeRetire rd (aluDiv (s.readReg rs1) (s.readReg rs2)))

/-- DIVU (R206): `x[rd] <- x[rs1] / x[rs2], unsigned`. -/
def execDivu (rd rs1 rs2 : Reg) (s : State) : Host.Outcome State Fault Refusal :=
  .next (s.writeRetire rd (aluDivu (s.readReg rs1) (s.readReg rs2)))

/-- REM (R207): `x[rd] <- x[rs1] rem x[rs2], signed`. -/
def execRem (rd rs1 rs2 : Reg) (s : State) : Host.Outcome State Fault Refusal :=
  .next (s.writeRetire rd (aluRem (s.readReg rs1) (s.readReg rs2)))

/-- REMU (R208): `x[rd] <- x[rs1] rem x[rs2], unsigned`. -/
def execRemu (rd rs1 rs2 : Reg) (s : State) : Host.Outcome State Fault Refusal :=
  .next (s.writeRetire rd (aluRemu (s.readReg rs1) (s.readReg rs2)))

end Sys2Proof.Machine
end

