-- ==== Sys2Proof/Machine/RegImm.lean ====
section
/-!
DEFINITION. The integer register-immediate operations (spec/41_integer_register_immediate.md R140 to R149).
-/

namespace Sys2Proof.Machine

/-- ADDI (R141): `x[rd] <- (x[rs1] + immI) mod 2^32`. -/
def execAddi (rd rs1 : Reg) (imm : BitVec 12) (s : State) : Host.Outcome State Fault Refusal :=
  .next (s.writeRetire rd (aluAdd (s.readReg rs1) (imm12 imm)))

/-- SLTI (R142): `x[rd] <- 1 if signed(x[rs1]) < signed(immI) else 0`. -/
def execSlti (rd rs1 : Reg) (imm : BitVec 12) (s : State) : Host.Outcome State Fault Refusal :=
  .next (s.writeRetire rd (aluSlt (s.readReg rs1) (imm12 imm)))

/-- SLTIU (R143): `x[rd] <- 1 if unsigned(x[rs1]) < unsigned(immI) else 0`. -/
def execSltiu (rd rs1 : Reg) (imm : BitVec 12) (s : State) : Host.Outcome State Fault Refusal :=
  .next (s.writeRetire rd (aluSltu (s.readReg rs1) (imm12 imm)))

/-- XORI (R144): `x[rd] <- x[rs1] ^ immI`. -/
def execXori (rd rs1 : Reg) (imm : BitVec 12) (s : State) : Host.Outcome State Fault Refusal :=
  .next (s.writeRetire rd (aluXor (s.readReg rs1) (imm12 imm)))

/-- ORI (R145): `x[rd] <- x[rs1] | immI`. -/
def execOri (rd rs1 : Reg) (imm : BitVec 12) (s : State) : Host.Outcome State Fault Refusal :=
  .next (s.writeRetire rd (aluOr (s.readReg rs1) (imm12 imm)))

/-- ANDI (R146): `x[rd] <- x[rs1] & immI`. -/
def execAndi (rd rs1 : Reg) (imm : BitVec 12) (s : State) : Host.Outcome State Fault Refusal :=
  .next (s.writeRetire rd (aluAnd (s.readReg rs1) (imm12 imm)))

/-- SLLI (R147): `x[rd] <- x[rs1] << shamt`. -/
def execSlli (rd rs1 : Reg) (shamt : BitVec 5) (s : State) : Host.Outcome State Fault Refusal :=
  .next (s.writeRetire rd (aluSll (s.readReg rs1) shamt.toNat))

/-- SRLI (R148): `x[rd] <- x[rs1] >>u shamt`. -/
def execSrli (rd rs1 : Reg) (shamt : BitVec 5) (s : State) : Host.Outcome State Fault Refusal :=
  .next (s.writeRetire rd (aluSrl (s.readReg rs1) shamt.toNat))

/-- SRAI (R149): `x[rd] <- x[rs1] >>s shamt`. -/
def execSrai (rd rs1 : Reg) (shamt : BitVec 5) (s : State) : Host.Outcome State Fault Refusal :=
  .next (s.writeRetire rd (aluSra (s.readReg rs1) shamt.toNat))

end Sys2Proof.Machine
end

