-- ==== Sys2Proof/Machine/RegReg.lean ====
section
/-!
DEFINITION. The integer register-register operations (spec/40_integer_register_register.md R120 to R133).
-/

namespace Sys2Proof.Machine

/-- ADD (R121): `x[rd] <- (x[rs1] + x[rs2]) mod 2^32`. -/
def execAdd (rd rs1 rs2 : Reg) (s : State) : Host.Outcome State Fault Refusal :=
  .next (s.writeRetire rd (aluAdd (s.readReg rs1) (s.readReg rs2)))

/-- SUB (R122): `x[rd] <- (x[rs1] - x[rs2]) mod 2^32`. -/
def execSub (rd rs1 rs2 : Reg) (s : State) : Host.Outcome State Fault Refusal :=
  .next (s.writeRetire rd (aluSub (s.readReg rs1) (s.readReg rs2)))

/-- SLL (R123): `x[rd] <- x[rs1] << x[rs2][4:0]`. -/
def execSll (rd rs1 rs2 : Reg) (s : State) : Host.Outcome State Fault Refusal :=
  .next (s.writeRetire rd (aluSll (s.readReg rs1) (shiftAmount (s.readReg rs2))))

/-- SLT (R124): `x[rd] <- 1 if signed(x[rs1]) < signed(x[rs2]) else 0`. -/
def execSlt (rd rs1 rs2 : Reg) (s : State) : Host.Outcome State Fault Refusal :=
  .next (s.writeRetire rd (aluSlt (s.readReg rs1) (s.readReg rs2)))

/-- SLTU (R125): `x[rd] <- 1 if unsigned(x[rs1]) < unsigned(x[rs2]) else 0`. -/
def execSltu (rd rs1 rs2 : Reg) (s : State) : Host.Outcome State Fault Refusal :=
  .next (s.writeRetire rd (aluSltu (s.readReg rs1) (s.readReg rs2)))

/-- XOR (R126): `x[rd] <- x[rs1] ^ x[rs2]`. -/
def execXor (rd rs1 rs2 : Reg) (s : State) : Host.Outcome State Fault Refusal :=
  .next (s.writeRetire rd (aluXor (s.readReg rs1) (s.readReg rs2)))

/-- SRL (R127): `x[rd] <- x[rs1] >>u x[rs2][4:0]`. -/
def execSrl (rd rs1 rs2 : Reg) (s : State) : Host.Outcome State Fault Refusal :=
  .next (s.writeRetire rd (aluSrl (s.readReg rs1) (shiftAmount (s.readReg rs2))))

/-- SRA (R128): `x[rd] <- x[rs1] >>s x[rs2][4:0]`. -/
def execSra (rd rs1 rs2 : Reg) (s : State) : Host.Outcome State Fault Refusal :=
  .next (s.writeRetire rd (aluSra (s.readReg rs1) (shiftAmount (s.readReg rs2))))

/-- OR (R129): `x[rd] <- x[rs1] | x[rs2]`. -/
def execOr (rd rs1 rs2 : Reg) (s : State) : Host.Outcome State Fault Refusal :=
  .next (s.writeRetire rd (aluOr (s.readReg rs1) (s.readReg rs2)))

/-- AND (R130): `x[rd] <- x[rs1] & x[rs2]`. -/
def execAnd (rd rs1 rs2 : Reg) (s : State) : Host.Outcome State Fault Refusal :=
  .next (s.writeRetire rd (aluAnd (s.readReg rs1) (s.readReg rs2)))

end Sys2Proof.Machine
end

