-- ==== Sys2Proof/Machine/SystemHalt.lean ====
section
/-!
DEFINITION. The system/halt class (spec/47_system_halt.md R220 to R227). Every other SYSTEM word is a
DecodeFault of the decoder (R225, R226).
-/

namespace Sys2Proof.Machine

/-- EBREAK (R220): `icount <- icount + 1; status <- Halted`; registers, memory and pc are not changed. -/
def execEbreak (s : State) : Host.Outcome State Fault Refusal :=
  .next s.halt

end Sys2Proof.Machine
end

