-- ==== Sys2Proof/Machine/UpperImm.lean ====
section
/-!
DEFINITION. The upper-immediate forms (spec/45_upper_immediate.md R190 to R193).
-/

namespace Sys2Proof.Machine

/-- LUI (R191): `x[rd] <- immU`. -/
def execLui (rd : Reg) (imm : BitVec 20) (s : State) : Host.Outcome State Fault Refusal :=
  .next (s.writeRetire rd (immU imm))

/-- AUIPC (R192): `x[rd] <- (pc + immU) mod 2^32`. -/
def execAuipc (rd : Reg) (imm : BitVec 20) (s : State) : Host.Outcome State Fault Refusal :=
  .next (s.writeRetire rd (s.pc + immU imm))

end Sys2Proof.Machine
end

