-- ==== Sys2Proof/Machine/Fetch.lean ====
section
/-!
DEFINITION. What a step does before the execute stage: the budget check, the fetch and the decode
(spec/48_execution_loop.md R230 lines 1 to 3, R231 to R233), in the order of R259.
-/

namespace Sys2Proof.Machine

/-- What the machine finds when it looks for its next instruction. -/
inductive Fetched where
  /-- an instruction to execute -/
  | instr (i : Instr)
  /-- a condition that ends the run, with the word if one was fetched (R255) -/
  | stops (c : Condition) (w : Option Word)
  deriving DecidableEq, Repr

/-- The decode of a fetched word (R233). -/
def State.decodeFetched (s : State) (w : Word) : Fetched :=
  match decode s.cfg.mEnabled w with
  | .decodeFault _ => .stops .decodeFault (some w)
  | .instr i => .instr i

/-- The budget check (R231), then the fetch `MemRead(pc, 4)` (R232, R64), then the decode (R233). -/
def State.fetchNext (s : State) : Fetched :=
  if s.cfg.budget ≤ s.icount then .stops .budgetExceeded none
  else
    match s.memRead s.pc with
    | .error c => .stops c none
    | .ok w => s.decodeFetched w

/-- The machine with a word loaded where the next fetch reads, if memory has that place. -/
def State.loadAtPc (s : State) (w : Word) : State :=
  match s.memWrite s.pc w with
  | .error _ => s
  | .ok t => t

end Sys2Proof.Machine
end

