-- ==== Sys2Proof/Machine/Step.lean ====
section
/-!
DEFINITION. One step of the machine (spec/48_execution_loop.md R230).
-/

namespace Sys2Proof.Machine

/-- One step (R230): from a running machine, the budget check, fetch and decode, and then either the
end of the run or the instruction's own rule. A machine that has ended takes no step (R34, U16). -/
def step (s : State) : Host.Outcome State Fault Refusal :=
  match s.status with
  | .running =>
    match s.fetchNext with
    | .stops c w => .next (s.endRun c w)
    | .instr i => exec i s
  | .halted => .fault .alreadyHalted
  | .faulted => .fault .alreadyFaulted
  | .budgetExceeded => .fault .alreadyBudgetExceeded

/-- The machine with an opcode-table word loaded at the pc, standing for the host's loading of a
program (R240, R283; log 7). Only memory changes. -/
def State.withFetchWord (s : State) (nbits w : Nat) : State := s.loadAtPc (tableWord nbits w)

end Sys2Proof.Machine
end

