-- ==== Sys2Proof/Machine/Pseudo.lean ====
section
/-!
DEFINITION. The pseudo-instructions (spec/30_encoding.md R105). The hardware knows none: each is an
assembler's abbreviation, so none is a constructor of `Instr` and the decoder has no case for one. What
stands here is the assembler's side of R105: the instructions each abbreviates, and what executing
them one after another does. A label stands as its encoded offset and a symbol as its distance from
the AUIPC, modulo 2^32 (log 15).
-/

namespace Sys2Proof.Machine

/-- The standard pseudo-instructions that expand to instructions of R96 (R105). -/
inductive Pseudo where
  | nop
  /-- `imm` is the word of the constant; its signed reading decides the short form -/
  | li (rd : Reg) (imm : Word)
  | la (rd : Reg) (distance : Word)
  | mv (rd rs : Reg)
  | not (rd rs : Reg)
  | neg (rd rs : Reg)
  | seqz (rd rs : Reg)
  | snez (rd rs : Reg)
  | sltz (rd rs : Reg)
  | sgtz (rd rs : Reg)
  | beqz (rs : Reg) (off : BitVec 13)
  | bnez (rs : Reg) (off : BitVec 13)
  | blez (rs : Reg) (off : BitVec 13)
  | bgez (rs : Reg) (off : BitVec 13)
  | bltz (rs : Reg) (off : BitVec 13)
  | bgtz (rs : Reg) (off : BitVec 13)
  | bgt (rs rt : Reg) (off : BitVec 13)
  | ble (rs rt : Reg) (off : BitVec 13)
  | bgtu (rs rt : Reg) (off : BitVec 13)
  | bleu (rs rt : Reg) (off : BitVec 13)
  | j (off : BitVec 21)
  | jal (off : BitVec 21)
  | jr (rs : Reg)
  | jalr (rs : Reg)
  | ret
  | call (distance : Word)
  | tail (distance : Word)
  deriving DecidableEq, Repr

/-- `lo = signed(sext_12(imm[11:0]))`, at its encoded width (R105). -/
def lowPart (c : Word) : BitVec 12 := c.extractLsb' 0 12

/-- `hi = ((imm - lo) mod 2^32)[31:12]` (R105). -/
def highPart (c : Word) : BitVec 20 := (c - imm12 (lowPart c)).extractLsb' 12 20

/-- The instructions a pseudo-instruction abbreviates, in the order of R105's table. -/
def Pseudo.expand : Pseudo → List Instr
  | .nop => [.addi 0 0 0#12]
  | .li rd imm =>
    if -2048 ≤ imm.toInt ∧ imm.toInt ≤ 2047 then [.addi rd 0 (lowPart imm)]
    else if lowPart imm = 0#12 then [.lui rd (highPart imm)]
    else [.lui rd (highPart imm), .addi rd rd (lowPart imm)]
  | .la rd d => [.auipc rd (highPart d), .addi rd rd (lowPart d)]
  | .mv rd rs => [.addi rd rs 0#12]
  | .not rd rs => [.xori rd rs (BitVec.ofInt 12 (-1))]
  | .neg rd rs => [.sub rd 0 rs]
  | .seqz rd rs => [.sltiu rd rs 1#12]
  | .snez rd rs => [.sltu rd 0 rs]
  | .sltz rd rs => [.slt rd rs 0]
  | .sgtz rd rs => [.slt rd 0 rs]
  | .beqz rs off => [.beq rs 0 off]
  | .bnez rs off => [.bne rs 0 off]
  | .blez rs off => [.bge 0 rs off]
  | .bgez rs off => [.bge rs 0 off]
  | .bltz rs off => [.blt rs 0 off]
  | .bgtz rs off => [.blt 0 rs off]
  | .bgt rs rt off => [.blt rt rs off]
  | .ble rs rt off => [.bge rt rs off]
  | .bgtu rs rt off => [.bltu rt rs off]
  | .bleu rs rt off => [.bgeu rt rs off]
  | .j off => [.jal 0 off]
  | .jal off => [.jal 1 off]
  | .jr rs => [.jalr 0 rs 0#12]
  | .jalr rs => [.jalr 1 rs 0#12]
  | .ret => [.jalr 0 1 0#12]
  | .call d => [.auipc 1 (highPart d), .jalr 1 1 (lowPart d)]
  | .tail d => [.auipc 6 (highPart d), .jalr 0 6 (lowPart d)]

/-- The words an assembler writes for it. -/
def Pseudo.words (p : Pseudo) : List Word := p.expand.map encode

/-- Instructions executed one after another, up to the first that answers no next state. -/
def execAll : List Instr → State → Host.Outcome State Fault Refusal
  | [], s => .next s
  | i :: is, s =>
    match exec i s with
    | .next t => execAll is t
    | .fault r => .fault r
    | .refused r => .refused r

/-- The pseudo-instructions R105 names whose expansion this hardware does not implement. The rule's
list is open ("and so on"): every word that is no row of R96 is a DecodeFault (R98). -/
inductive UnimplementedPseudo where
  | fence
  | csrr (rd : Reg) (csr : BitVec 12)
  | rdcycle (rd : Reg)
  | lb (rd : Reg) (distance : Word)
  | lh (rd : Reg) (distance : Word)
  /-- `rt` is the register the assembler forms the address in -/
  | sb (rs rt : Reg) (distance : Word)
  | sh (rs rt : Reg) (distance : Word)
  deriving DecidableEq, Repr

/-- The words an assembler writes for it: those before the last form an address with AUIPC. R105
names these without their expansions: the words of `fence` and `rdcycle` are those of rows 11 and 9 of
V-DEC (spec/95_test_vectors.md), the others are PRESUMED, safe (log 15). -/
def UnimplementedPseudo.words : UnimplementedPseudo → List Word
  | .fence => [0x0FF0000F#32]
  | .csrr rd csr => [encodeI csr 0 0b010#3 rd 0b1110011#7]
  | .rdcycle rd => [encodeI 0xC00#12 0 0b010#3 rd 0b1110011#7]
  | .lb rd d => [encode (.auipc rd (highPart d)), encodeI (lowPart d) rd 0b000#3 rd 0b0000011#7]
  | .lh rd d => [encode (.auipc rd (highPart d)), encodeI (lowPart d) rd 0b001#3 rd 0b0000011#7]
  | .sb rs rt d => [encode (.auipc rt (highPart d)), encodeS (lowPart d) rs rt 0b000#3 0b0100011#7]
  | .sh rs rt d => [encode (.auipc rt (highPart d)), encodeS (lowPart d) rs rt 0b001#3 0b0100011#7]

end Sys2Proof.Machine
end

