-- ==== Sys2Proof/Machine/Run.lean ====
section
/-!
DEFINITION. The run (spec/48_execution_loop.md R236): `step` applied while the status is Running.
-/

namespace Sys2Proof.Machine

/-- At most `k` steps, stopping at the first state whose status is not Running. -/
def State.runFor : Nat → State → State
  | 0, s => s
  | k + 1, s =>
    match s.status with
    | .running =>
      match step s with
      | .next t => State.runFor k t
      | .fault _ => s
      | .refused _ => s
    | .halted => s
    | .faulted => s
    | .budgetExceeded => s

/-- `run(S)` (R236): the budget left and one step more are enough to end any run. -/
def State.run (s : State) : State := s.runFor (s.cfg.budget - s.icount + 1)

end Sys2Proof.Machine
end

