-- ==== Sys2Proof/Safety.lean ====
section
/-!
DEFINITION. The vocabulary of the claims: what it is for an instruction to retire, for a run to end,
for a state to be well-formed, and the opcode table of spec/30_encoding.md R96 written out.
-/

namespace Sys2Proof.Machine

/-! ## What a step did -/

/-- `t` is `s` after an instruction retired that writes the word `v` to `x[rd]` (nothing if `rd` is 0,
R23) and sets the pc to `npc`: every other register, every byte of memory, the status, the report and
the configuration are unchanged, and one instruction more is counted (R25, R235). -/
structure RetiresWriting (s t : State) (rd : Reg) (v npc : Word) : Prop where
  reg : ∀ r, t.readReg r = if r = rd ∧ r ≠ 0 then v else s.readReg r
  pc : t.pc = npc
  icount : t.icount = s.icount + 1
  mem : ∀ a, Memory.byteAt t.mem a = Memory.byteAt s.mem a
  status : t.status = s.status
  report : t.report = s.report
  cfg : t.cfg = s.cfg

/-- `t` is `s` after `n` instructions retired that together leave the word `v` in `x[rd]` (nothing if
`rd` is 0, R23) and the pc at `npc`: everything else as in `RetiresWriting` (R105, R235). -/
structure SequenceWriting (s t : State) (n : Nat) (rd : Reg) (v npc : Word) : Prop where
  reg : ∀ r, t.readReg r = if r = rd ∧ r ≠ 0 then v else s.readReg r
  pc : t.pc = npc
  icount : t.icount = s.icount + n
  mem : ∀ a, Memory.byteAt t.mem a = Memory.byteAt s.mem a
  status : t.status = s.status
  report : t.report = s.report
  cfg : t.cfg = s.cfg

/-- `t` is `s` after an instruction retired that writes no register and no memory and sets the pc to
`npc` (R170, R235). -/
structure RetiresTo (s t : State) (npc : Word) : Prop where
  reg : ∀ r, t.readReg r = s.readReg r
  pc : t.pc = npc
  icount : t.icount = s.icount + 1
  mem : ∀ a, Memory.byteAt t.mem a = Memory.byteAt s.mem a
  status : t.status = s.status
  report : t.report = s.report
  cfg : t.cfg = s.cfg

/-- `t` is `s` after an instruction retired that stores the word `v` little-endian at `ea` and goes on
to the next instruction (R54, R162): every byte outside `ea` to `ea + 3` is unchanged, and so is every
register. -/
structure RetiresStoring (s t : State) (ea v : Word) : Prop where
  byte0 : Memory.byteAt t.mem ea.toNat = v.extractLsb' 0 8
  byte1 : Memory.byteAt t.mem (ea.toNat + 1) = v.extractLsb' 8 8
  byte2 : Memory.byteAt t.mem (ea.toNat + 2) = v.extractLsb' 16 8
  byte3 : Memory.byteAt t.mem (ea.toNat + 3) = v.extractLsb' 24 8
  mem : ∀ a, (a < ea.toNat ∨ ea.toNat + 4 ≤ a) → Memory.byteAt t.mem a = Memory.byteAt s.mem a
  reg : ∀ r, t.readReg r = s.readReg r
  pc : t.pc = s.pc + 4#32
  icount : t.icount = s.icount + 1
  status : t.status = s.status
  report : t.report = s.report
  cfg : t.cfg = s.cfg

/-- `t` is `s` after the condition `c` ended the run with the word `w` (R255, R256, R258): the status
and the report are written and everything else is unchanged. -/
structure StopsWith (s t : State) (c : Condition) (w : Option Word) : Prop where
  status : t.status = if c = .budgetExceeded then .budgetExceeded else .faulted
  report : t.report = some ⟨c, s.pc, w⟩
  reg : ∀ r, t.readReg r = s.readReg r
  mem : ∀ a, Memory.byteAt t.mem a = Memory.byteAt s.mem a
  pc : t.pc = s.pc
  icount : t.icount = s.icount
  cfg : t.cfg = s.cfg

/-- The registers, the memory, the pc and the memory size are the same: all a program can see
(R34, R36, R38). -/
structure SameToProgram (s t : State) : Prop where
  reg : ∀ r, s.readReg r = t.readReg r
  mem : ∀ a, Memory.byteAt s.mem a = Memory.byteAt t.mem a
  pc : s.pc = t.pc
  memSize : s.cfg.memSize = t.cfg.memSize

/-! ## Runs -/

/-- The run has ended (R237). -/
abbrev State.Ended (s : State) : Prop := s.status ≠ .running

/-- The run ended well (R237): an EBREAK retired. -/
abbrev State.EndedWell (s : State) : Prop := s.status = .halted

/-! ## Well-formed states -/

/-- The report and the status agree (R35, R255, R256): a running or halted machine has no report; a
faulted one has a report of one of the three faults, a budget-ended one of BudgetExceeded without a
word, and each names the pc the machine stands at. -/
def State.ReportAgrees (s : State) : Prop :=
  match s.status with
  | .running => s.report = none
  | .halted => s.report = none
  | .faulted => ∃ c w, s.report = some ⟨c, s.pc, w⟩ ∧ c ≠ .budgetExceeded
  | .budgetExceeded => s.report = some ⟨.budgetExceeded, s.pc, none⟩

/-- The invariant of the machine: the configuration is in the range of R9, memory is canonical and
lists no address outside `0 .. MEM_SIZE - 1` (R39, R58), slot 0 of the register array holds 0 (R23),
no more instructions retired than the budget allows (R36, R231), and the report agrees with the
status. -/
structure State.Inv (s : State) : Prop where
  cfg : s.cfg.Valid
  mem : Memory.Wf s.mem
  inside : ∀ c ∈ s.mem, c.1 < s.cfg.memSize
  zero : s.regs[(0 : Reg)] = 0#32
  count : s.icount ≤ s.cfg.budget
  report : s.ReportAgrees

/-! ## Instructions by what they touch -/

/-- The register an instruction writes: its `rd` field, if it has one (R25). -/
def dest : Instr → Option Reg
  | .add rd _ _ | .sub rd _ _ | .sll rd _ _ | .slt rd _ _ | .sltu rd _ _ => some rd
  | .xor rd _ _ | .srl rd _ _ | .sra rd _ _ | .or rd _ _ | .and rd _ _ => some rd
  | .addi rd _ _ | .slti rd _ _ | .sltiu rd _ _ | .xori rd _ _ | .ori rd _ _ => some rd
  | .andi rd _ _ | .slli rd _ _ | .srli rd _ _ | .srai rd _ _ => some rd
  | .lw rd _ _ | .jal rd _ | .jalr rd _ _ | .lui rd _ | .auipc rd _ => some rd
  | .mul rd _ _ | .mulh rd _ _ | .mulhsu rd _ _ | .mulhu rd _ _ => some rd
  | .div rd _ _ | .divu rd _ _ | .rem rd _ _ | .remu rd _ _ => some rd
  | .sw _ _ _ | .beq _ _ _ | .bne _ _ _ | .blt _ _ _ | .bge _ _ _ | .bltu _ _ _ | .bgeu _ _ _ => none
  | .ebreak => none

/-- The store (R39): SW alone. -/
def isStore : Instr → Bool
  | .sw _ _ _ => true
  | .add _ _ _ | .sub _ _ _ | .sll _ _ _ | .slt _ _ _ | .sltu _ _ _ => false
  | .xor _ _ _ | .srl _ _ _ | .sra _ _ _ | .or _ _ _ | .and _ _ _ => false
  | .addi _ _ _ | .slti _ _ _ | .sltiu _ _ _ | .xori _ _ _ | .ori _ _ _ => false
  | .andi _ _ _ | .slli _ _ _ | .srli _ _ _ | .srai _ _ _ | .lw _ _ _ => false
  | .beq _ _ _ | .bne _ _ _ | .blt _ _ _ | .bge _ _ _ | .bltu _ _ _ | .bgeu _ _ _ => false
  | .jal _ _ | .jalr _ _ _ | .lui _ _ | .auipc _ _ => false
  | .mul _ _ _ | .mulh _ _ _ | .mulhsu _ _ _ | .mulhu _ _ _ => false
  | .div _ _ _ | .divu _ _ _ | .rem _ _ _ | .remu _ _ _ | .ebreak => false

/-- The load (R25): LW alone. -/
def isLoad : Instr → Bool
  | .lw _ _ _ => true
  | .add _ _ _ | .sub _ _ _ | .sll _ _ _ | .slt _ _ _ | .sltu _ _ _ => false
  | .xor _ _ _ | .srl _ _ _ | .sra _ _ _ | .or _ _ _ | .and _ _ _ => false
  | .addi _ _ _ | .slti _ _ _ | .sltiu _ _ _ | .xori _ _ _ | .ori _ _ _ => false
  | .andi _ _ _ | .slli _ _ _ | .srli _ _ _ | .srai _ _ _ | .sw _ _ _ => false
  | .beq _ _ _ | .bne _ _ _ | .blt _ _ _ | .bge _ _ _ | .bltu _ _ _ | .bgeu _ _ _ => false
  | .jal _ _ | .jalr _ _ _ | .lui _ _ | .auipc _ _ => false
  | .mul _ _ _ | .mulh _ _ _ | .mulhsu _ _ _ | .mulhu _ _ _ => false
  | .div _ _ _ | .divu _ _ _ | .rem _ _ _ | .remu _ _ _ | .ebreak => false

/-- The branches and jumps, the instructions that transfer control (R261). -/
def isTransfer : Instr → Bool
  | .beq _ _ _ | .bne _ _ _ | .blt _ _ _ | .bge _ _ _ | .bltu _ _ _ | .bgeu _ _ _ => true
  | .jal _ _ | .jalr _ _ _ => true
  | .add _ _ _ | .sub _ _ _ | .sll _ _ _ | .slt _ _ _ | .sltu _ _ _ => false
  | .xor _ _ _ | .srl _ _ _ | .sra _ _ _ | .or _ _ _ | .and _ _ _ => false
  | .addi _ _ _ | .slti _ _ _ | .sltiu _ _ _ | .xori _ _ _ | .ori _ _ _ => false
  | .andi _ _ _ | .slli _ _ _ | .srli _ _ _ | .srai _ _ _ => false
  | .lw _ _ _ | .sw _ _ _ | .lui _ _ | .auipc _ _ => false
  | .mul _ _ _ | .mulh _ _ _ | .mulhsu _ _ _ | .mulhu _ _ _ => false
  | .div _ _ _ | .divu _ _ _ | .rem _ _ _ | .remu _ _ _ | .ebreak => false

/-! ## The corpus's software product -/

/-- The shift-and-add routine of R201 and program P4, `k` rounds: add the shifted multiplicand where
the multiplier's low bit is 1. It is built from the machine's own ADD, SLLI, SRLI and ANDI results. -/
def shiftAndAdd : Nat → Word → Word → Word → Word
  | 0, acc, _, _ => acc
  | k + 1, acc, a, b =>
    shiftAndAdd k (if aluAnd b 1#32 = 0#32 then acc else aluAdd acc a) (aluSll a 1) (aluSrl b 1)

/-! ## The opcode table (R96) -/

/-- One row of R96: a word is the instruction exactly when `w & mask = pattern`; a
`mulDiv` row also needs `M_ENABLED`. -/
structure EncodingRow where
  mask : Word
  pattern : Word
  mulDiv : Bool
  build : Word → Instr

/-- The word belongs to the row on a machine whose toggle is `m` (R96, R99). -/
def EncodingRow.Accepts (row : EncodingRow) (m : Bool) (w : Word) : Prop :=
  w &&& row.mask = row.pattern ∧ (row.mulDiv = true → m = true)

/-- A register-register row. -/
def rowR (pattern : Word) (mulDiv : Bool) (c : Reg → Reg → Reg → Instr) : EncodingRow :=
  ⟨0xFE00707F#32, pattern, mulDiv, fun w => c (rdOf w) (rs1Of w) (rs2Of w)⟩

/-- A row with `rd`, `rs1` and the I-type immediate. -/
def rowI (pattern : Word) (c : Reg → Reg → BitVec 12 → Instr) : EncodingRow :=
  ⟨0x0000707F#32, pattern, false, fun w => c (rdOf w) (rs1Of w) (immIOf w)⟩

/-- A shift-immediate row. -/
def rowShift (pattern : Word) (c : Reg → Reg → BitVec 5 → Instr) : EncodingRow :=
  ⟨0xFE00707F#32, pattern, false, fun w => c (rdOf w) (rs1Of w) (shamtOf w)⟩

/-- A branch row. -/
def rowB (pattern : Word) (c : Reg → Reg → BitVec 13 → Instr) : EncodingRow :=
  ⟨0x0000707F#32, pattern, false, fun w => c (rs1Of w) (rs2Of w) (immBOf w)⟩

def rowsRegReg : List EncodingRow :=
  [rowR 0x00000033#32 false .add, rowR 0x40000033#32 false .sub, rowR 0x00001033#32 false .sll,
   rowR 0x00002033#32 false .slt, rowR 0x00003033#32 false .sltu, rowR 0x00004033#32 false .xor,
   rowR 0x00005033#32 false .srl, rowR 0x40005033#32 false .sra, rowR 0x00006033#32 false .or,
   rowR 0x00007033#32 false .and]

def rowsRegImm : List EncodingRow :=
  [rowI 0x00000013#32 .addi, rowI 0x00002013#32 .slti, rowI 0x00003013#32 .sltiu,
   rowI 0x00004013#32 .xori, rowI 0x00006013#32 .ori, rowI 0x00007013#32 .andi,
   rowShift 0x00001013#32 .slli, rowShift 0x00005013#32 .srli, rowShift 0x40005013#32 .srai]

def rowsMemoryAndControl : List EncodingRow :=
  [rowI 0x00002003#32 .lw,
   ⟨0x0000707F#32, 0x00002023#32, false, fun w => .sw (rs1Of w) (rs2Of w) (immSOf w)⟩,
   rowB 0x00000063#32 .beq, rowB 0x00001063#32 .bne, rowB 0x00004063#32 .blt,
   rowB 0x00005063#32 .bge, rowB 0x00006063#32 .bltu, rowB 0x00007063#32 .bgeu,
   ⟨0x0000007F#32, 0x0000006F#32, false, fun w => .jal (rdOf w) (immJOf w)⟩,
   rowI 0x00000067#32 .jalr,
   ⟨0x0000007F#32, 0x00000037#32, false, fun w => .lui (rdOf w) (immUOf w)⟩,
   ⟨0x0000007F#32, 0x00000017#32, false, fun w => .auipc (rdOf w) (immUOf w)⟩]

def rowsMulDivAndHalt : List EncodingRow :=
  [rowR 0x02000033#32 true .mul, rowR 0x02001033#32 true .mulh, rowR 0x02002033#32 true .mulhsu,
   rowR 0x02003033#32 true .mulhu, rowR 0x02004033#32 true .div, rowR 0x02005033#32 true .divu,
   rowR 0x02006033#32 true .rem, rowR 0x02007033#32 true .remu,
   ⟨0xFFFFFFFF#32, 0x00100073#32, false, fun _ => .ebreak⟩]

/-- The 40 rows of R96. -/
def encodingTable : List EncodingRow :=
  rowsRegReg ++ rowsRegImm ++ rowsMemoryAndControl ++ rowsMulDivAndHalt

end Sys2Proof.Machine
end

