-- ==== Sys2Proof/Certificates/Slice0/Obligations.lean ====
section
/-!
DEFINITION. The statements for the provers. Each is about every state, whether or not a run reaches
it; the rules cited are those of spec/. Result statements give the next state in the spec's own
arithmetic (naturals and integers reduced modulo 2^32), and `RetiresWriting`, `RetiresTo`,
`RetiresStoring` and `StopsWith` (Sys2Proof/Safety.lean) carry the frame: every register, byte of
memory and field an instruction does not name is unchanged.
-/

open Sys2Proof Sys2Proof.Machine

/-! ## Integer register-register operations -/

/-- R121, R122: the encodings of ADD and SUB, and their results modulo 2^32, the same whether the
operands are read as unsigned or as signed. -/
def Obligations.AddAndSubWrap : Prop :=
  (∀ m w, w &&& 0xFE00707F#32 = 0x00000033#32 →
    decode m w = .instr (.add (rdOf w) (rs1Of w) (rs2Of w))) ∧
  (∀ m w, w &&& 0xFE00707F#32 = 0x40000033#32 →
    decode m w = .instr (.sub (rdOf w) (rs1Of w) (rs2Of w))) ∧
  (∀ s rd rs1 rs2, ∃ t, exec (.add rd rs1 rs2) s = .next t ∧
    RetiresWriting s t rd (BitVec.ofNat 32 ((s.readReg rs1).toNat + (s.readReg rs2).toNat))
      (s.pc + 4#32) ∧
    RetiresWriting s t rd (BitVec.ofInt 32 ((s.readReg rs1).toInt + (s.readReg rs2).toInt))
      (s.pc + 4#32)) ∧
  (∀ s rd rs1 rs2, ∃ t, exec (.sub rd rs1 rs2) s = .next t ∧
    RetiresWriting s t rd
      (BitVec.ofInt 32 (((s.readReg rs1).toNat : Int) - ((s.readReg rs2).toNat : Int)))
      (s.pc + 4#32) ∧
    RetiresWriting s t rd (BitVec.ofInt 32 ((s.readReg rs1).toInt - (s.readReg rs2).toInt))
      (s.pc + 4#32))

/-- R123, R127, R128: the encodings of SLL, SRL and SRA, and their results: the amount is the low 5
bits of `x[rs2]`; a left shift multiplies, a logical right shift divides the unsigned reading, an
arithmetic one divides the signed reading, rounding toward minus infinity. -/
def Obligations.RegisterShifts : Prop :=
  (∀ m w, w &&& 0xFE00707F#32 = 0x00001033#32 →
    decode m w = .instr (.sll (rdOf w) (rs1Of w) (rs2Of w))) ∧
  (∀ m w, w &&& 0xFE00707F#32 = 0x00005033#32 →
    decode m w = .instr (.srl (rdOf w) (rs1Of w) (rs2Of w))) ∧
  (∀ m w, w &&& 0xFE00707F#32 = 0x40005033#32 →
    decode m w = .instr (.sra (rdOf w) (rs1Of w) (rs2Of w))) ∧
  (∀ s rd rs1 rs2, ∃ t, exec (.sll rd rs1 rs2) s = .next t ∧
    RetiresWriting s t rd
      (BitVec.ofNat 32 ((s.readReg rs1).toNat * 2 ^ ((s.readReg rs2).toNat % 32)))
      (s.pc + 4#32)) ∧
  (∀ s rd rs1 rs2, ∃ t, exec (.srl rd rs1 rs2) s = .next t ∧
    RetiresWriting s t rd
      (BitVec.ofNat 32 ((s.readReg rs1).toNat / 2 ^ ((s.readReg rs2).toNat % 32)))
      (s.pc + 4#32)) ∧
  (∀ s rd rs1 rs2, ∃ t, exec (.sra rd rs1 rs2) s = .next t ∧
    RetiresWriting s t rd
      (BitVec.ofInt 32 ((s.readReg rs1).toInt / 2 ^ ((s.readReg rs2).toNat % 32)))
      (s.pc + 4#32))

/-- R124, R125: the encodings of SLT and SLTU, and their results, the word 1 or the word 0 by the
signed or the unsigned comparison. -/
def Obligations.SetLessThanRegister : Prop :=
  (∀ m w, w &&& 0xFE00707F#32 = 0x00002033#32 →
    decode m w = .instr (.slt (rdOf w) (rs1Of w) (rs2Of w))) ∧
  (∀ m w, w &&& 0xFE00707F#32 = 0x00003033#32 →
    decode m w = .instr (.sltu (rdOf w) (rs1Of w) (rs2Of w))) ∧
  (∀ s rd rs1 rs2, ∃ t, exec (.slt rd rs1 rs2) s = .next t ∧
    RetiresWriting s t rd
      (if (s.readReg rs1).toInt < (s.readReg rs2).toInt then 1#32 else 0#32) (s.pc + 4#32)) ∧
  (∀ s rd rs1 rs2, ∃ t, exec (.sltu rd rs1 rs2) s = .next t ∧
    RetiresWriting s t rd
      (if (s.readReg rs1).toNat < (s.readReg rs2).toNat then 1#32 else 0#32) (s.pc + 4#32))

/-- R126, R129, R130: the encodings of XOR, OR and AND, and their results bit by bit. -/
def Obligations.BitwiseRegister : Prop :=
  (∀ m w, w &&& 0xFE00707F#32 = 0x00004033#32 →
    decode m w = .instr (.xor (rdOf w) (rs1Of w) (rs2Of w))) ∧
  (∀ m w, w &&& 0xFE00707F#32 = 0x00006033#32 →
    decode m w = .instr (.or (rdOf w) (rs1Of w) (rs2Of w))) ∧
  (∀ m w, w &&& 0xFE00707F#32 = 0x00007033#32 →
    decode m w = .instr (.and (rdOf w) (rs1Of w) (rs2Of w))) ∧
  (∀ s rd rs1 rs2, ∃ t v, exec (.xor rd rs1 rs2) s = .next t ∧
    RetiresWriting s t rd v (s.pc + 4#32) ∧
    ∀ i, i < 32 → (v.getLsbD i = true ↔
      (s.readReg rs1).getLsbD i ≠ (s.readReg rs2).getLsbD i)) ∧
  (∀ s rd rs1 rs2, ∃ t v, exec (.or rd rs1 rs2) s = .next t ∧
    RetiresWriting s t rd v (s.pc + 4#32) ∧
    ∀ i, i < 32 → (v.getLsbD i = true ↔
      (s.readReg rs1).getLsbD i = true ∨ (s.readReg rs2).getLsbD i = true)) ∧
  (∀ s rd rs1 rs2, ∃ t v, exec (.and rd rs1 rs2) s = .next t ∧
    RetiresWriting s t rd v (s.pc + 4#32) ∧
    ∀ i, i < 32 → (v.getLsbD i = true ↔
      (s.readReg rs1).getLsbD i = true ∧ (s.readReg rs2).getLsbD i = true))

/-! ## Integer register-immediate operations -/

/-- R141, R142, R143: the encodings of ADDI, SLTI and SLTIU, and their results with the sign-extended
immediate, which SLTIU then reads as unsigned. -/
def Obligations.ImmediateArithmetic : Prop :=
  (∀ m w, w &&& 0x0000707F#32 = 0x00000013#32 →
    decode m w = .instr (.addi (rdOf w) (rs1Of w) (w.extractLsb' 20 12))) ∧
  (∀ m w, w &&& 0x0000707F#32 = 0x00002013#32 →
    decode m w = .instr (.slti (rdOf w) (rs1Of w) (w.extractLsb' 20 12))) ∧
  (∀ m w, w &&& 0x0000707F#32 = 0x00003013#32 →
    decode m w = .instr (.sltiu (rdOf w) (rs1Of w) (w.extractLsb' 20 12))) ∧
  (∀ s rd rs1 imm, ∃ t, exec (.addi rd rs1 imm) s = .next t ∧
    RetiresWriting s t rd (BitVec.ofInt 32 (((s.readReg rs1).toNat : Int) + imm.toInt))
      (s.pc + 4#32)) ∧
  (∀ s rd rs1 imm, ∃ t, exec (.slti rd rs1 imm) s = .next t ∧
    RetiresWriting s t rd (if (s.readReg rs1).toInt < imm.toInt then 1#32 else 0#32)
      (s.pc + 4#32)) ∧
  (∀ s rd rs1 imm, ∃ t, exec (.sltiu rd rs1 imm) s = .next t ∧
    RetiresWriting s t rd
      (if (s.readReg rs1).toNat < (BitVec.ofInt 32 imm.toInt).toNat then 1#32 else 0#32)
      (s.pc + 4#32))

/-- R144, R145, R146: the encodings of XORI, ORI and ANDI, and their results bit by bit; bits 31 to 12
of the second operand repeat the immediate's sign, its bit 11. -/
def Obligations.BitwiseImmediate : Prop :=
  (∀ m w, w &&& 0x0000707F#32 = 0x00004013#32 →
    decode m w = .instr (.xori (rdOf w) (rs1Of w) (w.extractLsb' 20 12))) ∧
  (∀ m w, w &&& 0x0000707F#32 = 0x00006013#32 →
    decode m w = .instr (.ori (rdOf w) (rs1Of w) (w.extractLsb' 20 12))) ∧
  (∀ m w, w &&& 0x0000707F#32 = 0x00007013#32 →
    decode m w = .instr (.andi (rdOf w) (rs1Of w) (w.extractLsb' 20 12))) ∧
  (∀ s rd rs1 imm, ∃ t v, exec (.xori rd rs1 imm) s = .next t ∧
    RetiresWriting s t rd v (s.pc + 4#32) ∧
    ∀ i, i < 32 → (v.getLsbD i = true ↔
      (s.readReg rs1).getLsbD i ≠ imm.getLsbD (min i 11))) ∧
  (∀ s rd rs1 imm, ∃ t v, exec (.ori rd rs1 imm) s = .next t ∧
    RetiresWriting s t rd v (s.pc + 4#32) ∧
    ∀ i, i < 32 → (v.getLsbD i = true ↔
      (s.readReg rs1).getLsbD i = true ∨ imm.getLsbD (min i 11) = true)) ∧
  (∀ s rd rs1 imm, ∃ t v, exec (.andi rd rs1 imm) s = .next t ∧
    RetiresWriting s t rd v (s.pc + 4#32) ∧
    ∀ i, i < 32 → (v.getLsbD i = true ↔
      (s.readReg rs1).getLsbD i = true ∧ imm.getLsbD (min i 11) = true))

/-- R147, R148, R149: the encodings of SLLI, SRLI and SRAI, the words of their opcode and `funct3`
that the decoder refuses, and their results. -/
def Obligations.ImmediateShifts : Prop :=
  (∀ m w, w &&& 0xFE00707F#32 = 0x00001013#32 →
    decode m w = .instr (.slli (rdOf w) (rs1Of w) (w.extractLsb' 20 5))) ∧
  (∀ m w, w &&& 0xFE00707F#32 = 0x00005013#32 →
    decode m w = .instr (.srli (rdOf w) (rs1Of w) (w.extractLsb' 20 5))) ∧
  (∀ m w, w &&& 0xFE00707F#32 = 0x40005013#32 →
    decode m w = .instr (.srai (rdOf w) (rs1Of w) (w.extractLsb' 20 5))) ∧
  (∀ m w, w &&& 0x0000707F#32 = 0x00001013#32 → w.extractLsb' 25 7 ≠ 0b0000000#7 →
    ∃ why, decode m w = .decodeFault why) ∧
  (∀ m w, w &&& 0x0000707F#32 = 0x00005013#32 → w.extractLsb' 25 7 ≠ 0b0000000#7 →
    w.extractLsb' 25 7 ≠ 0b0100000#7 → ∃ why, decode m w = .decodeFault why) ∧
  (∀ s rd rs1 shamt, ∃ t, exec (.slli rd rs1 shamt) s = .next t ∧
    RetiresWriting s t rd (BitVec.ofNat 32 ((s.readReg rs1).toNat * 2 ^ shamt.toNat))
      (s.pc + 4#32)) ∧
  (∀ s rd rs1 shamt, ∃ t, exec (.srli rd rs1 shamt) s = .next t ∧
    RetiresWriting s t rd (BitVec.ofNat 32 ((s.readReg rs1).toNat / 2 ^ shamt.toNat))
      (s.pc + 4#32)) ∧
  (∀ s rd rs1 shamt, ∃ t, exec (.srai rd rs1 shamt) s = .next t ∧
    RetiresWriting s t rd (BitVec.ofInt 32 ((s.readReg rs1).toInt / 2 ^ shamt.toNat))
      (s.pc + 4#32))

/-! ## Load and store -/

/-- R161: the encoding of LW; its address, modulo 2^32; the little-endian word loaded from an aligned
address in memory; and the two faults, alignment before bounds, whose report names the load. -/
def Obligations.LoadWord : Prop :=
  (∀ m w, w &&& 0x0000707F#32 = 0x00002003#32 →
    decode m w = .instr (.lw (rdOf w) (rs1Of w) (w.extractLsb' 20 12))) ∧
  (∀ s : State, ∀ rs1 imm,
    s.effAddr rs1 imm = BitVec.ofInt 32 (((s.readReg rs1).toNat : Int) + imm.toInt)) ∧
  (∀ s rd rs1 imm, (s.effAddr rs1 imm).toNat % 4 = 0 →
    (s.effAddr rs1 imm).toNat + 4 ≤ s.cfg.memSize →
    ∃ t, exec (.lw rd rs1 imm) s = .next t ∧
      RetiresWriting s t rd
        (BitVec.ofNat 32
          ((Memory.byteAt s.mem (s.effAddr rs1 imm).toNat).toNat +
            2 ^ 8 * (Memory.byteAt s.mem ((s.effAddr rs1 imm).toNat + 1)).toNat +
            2 ^ 16 * (Memory.byteAt s.mem ((s.effAddr rs1 imm).toNat + 2)).toNat +
            2 ^ 24 * (Memory.byteAt s.mem ((s.effAddr rs1 imm).toNat + 3)).toNat))
        (s.pc + 4#32)) ∧
  (∀ s rd rs1 imm, (s.effAddr rs1 imm).toNat % 4 ≠ 0 →
    ∃ t, exec (.lw rd rs1 imm) s = .next t ∧
      StopsWith s t .alignmentFault (some (encode (.lw rd rs1 imm)))) ∧
  (∀ s rd rs1 imm, (s.effAddr rs1 imm).toNat % 4 = 0 →
    s.cfg.memSize < (s.effAddr rs1 imm).toNat + 4 →
    ∃ t, exec (.lw rd rs1 imm) s = .next t ∧
      StopsWith s t .outOfBoundsFault (some (encode (.lw rd rs1 imm))))

/-- R162: the encoding of SW; its address, modulo 2^32; the four bytes stored little-endian at an
aligned address in memory and no other byte, which later loads and fetches read; and the two faults,
alignment before bounds, whose report names the store. -/
def Obligations.StoreWord : Prop :=
  (∀ m w, w &&& 0x0000707F#32 = 0x00002023#32 →
    decode m w =
      .instr (.sw (rs1Of w) (rs2Of w) (w.extractLsb' 25 7 ++ w.extractLsb' 7 5))) ∧
  (∀ s : State, ∀ rs1 imm,
    s.effAddr rs1 imm = BitVec.ofInt 32 (((s.readReg rs1).toNat : Int) + imm.toInt)) ∧
  (∀ s rs1 rs2 imm, (s.effAddr rs1 imm).toNat % 4 = 0 →
    (s.effAddr rs1 imm).toNat + 4 ≤ s.cfg.memSize →
    ∃ t, exec (.sw rs1 rs2 imm) s = .next t ∧
      RetiresStoring s t (s.effAddr rs1 imm) (s.readReg rs2) ∧
      t.memRead (s.effAddr rs1 imm) = .ok (s.readReg rs2)) ∧
  (∀ s rs1 rs2 imm, (s.effAddr rs1 imm).toNat % 4 ≠ 0 →
    ∃ t, exec (.sw rs1 rs2 imm) s = .next t ∧
      StopsWith s t .alignmentFault (some (encode (.sw rs1 rs2 imm)))) ∧
  (∀ s rs1 rs2 imm, (s.effAddr rs1 imm).toNat % 4 = 0 →
    s.cfg.memSize < (s.effAddr rs1 imm).toNat + 4 →
    ∃ t, exec (.sw rs1 rs2 imm) s = .next t ∧
      StopsWith s t .outOfBoundsFault (some (encode (.sw rs1 rs2 imm))))

/-! ## Conditional branches -/

/-- R172, R173: the encodings of BEQ and BNE and their pc rule (R171): to the branch's own address plus
the signed offset, modulo 2^32, when the 32-bit patterns are equal (differ), else to the next
instruction; nothing else changes. -/
def Obligations.BranchOnEquality : Prop :=
  (∀ m w, w &&& 0x0000707F#32 = 0x00000063#32 →
    decode m w = .instr (.beq (rs1Of w) (rs2Of w) (immBOf w))) ∧
  (∀ m w, w &&& 0x0000707F#32 = 0x00001063#32 →
    decode m w = .instr (.bne (rs1Of w) (rs2Of w) (immBOf w))) ∧
  (∀ s rs1 rs2 off, ∃ t, exec (.beq rs1 rs2 off) s = .next t ∧
    RetiresTo s t (if s.readReg rs1 = s.readReg rs2
      then BitVec.ofInt 32 ((s.pc.toNat : Int) + off.toInt) else s.pc + 4#32)) ∧
  (∀ s rs1 rs2 off, ∃ t, exec (.bne rs1 rs2 off) s = .next t ∧
    RetiresTo s t (if s.readReg rs1 = s.readReg rs2
      then s.pc + 4#32 else BitVec.ofInt 32 ((s.pc.toNat : Int) + off.toInt)))

/-- R174, R175: the encodings of BLT and BGE and their pc rule by the signed comparison. -/
def Obligations.BranchOnSignedOrder : Prop :=
  (∀ m w, w &&& 0x0000707F#32 = 0x00004063#32 →
    decode m w = .instr (.blt (rs1Of w) (rs2Of w) (immBOf w))) ∧
  (∀ m w, w &&& 0x0000707F#32 = 0x00005063#32 →
    decode m w = .instr (.bge (rs1Of w) (rs2Of w) (immBOf w))) ∧
  (∀ s rs1 rs2 off, ∃ t, exec (.blt rs1 rs2 off) s = .next t ∧
    RetiresTo s t (if (s.readReg rs1).toInt < (s.readReg rs2).toInt
      then BitVec.ofInt 32 ((s.pc.toNat : Int) + off.toInt) else s.pc + 4#32)) ∧
  (∀ s rs1 rs2 off, ∃ t, exec (.bge rs1 rs2 off) s = .next t ∧
    RetiresTo s t (if (s.readReg rs2).toInt ≤ (s.readReg rs1).toInt
      then BitVec.ofInt 32 ((s.pc.toNat : Int) + off.toInt) else s.pc + 4#32))

/-- R176, R177: the encodings of BLTU and BGEU and their pc rule by the unsigned comparison. -/
def Obligations.BranchOnUnsignedOrder : Prop :=
  (∀ m w, w &&& 0x0000707F#32 = 0x00006063#32 →
    decode m w = .instr (.bltu (rs1Of w) (rs2Of w) (immBOf w))) ∧
  (∀ m w, w &&& 0x0000707F#32 = 0x00007063#32 →
    decode m w = .instr (.bgeu (rs1Of w) (rs2Of w) (immBOf w))) ∧
  (∀ s rs1 rs2 off, ∃ t, exec (.bltu rs1 rs2 off) s = .next t ∧
    RetiresTo s t (if (s.readReg rs1).toNat < (s.readReg rs2).toNat
      then BitVec.ofInt 32 ((s.pc.toNat : Int) + off.toInt) else s.pc + 4#32)) ∧
  (∀ s rs1 rs2 off, ∃ t, exec (.bgeu rs1 rs2 off) s = .next t ∧
    RetiresTo s t (if (s.readReg rs2).toNat ≤ (s.readReg rs1).toNat
      then BitVec.ofInt 32 ((s.pc.toNat : Int) + off.toInt) else s.pc + 4#32))

/-! ## Jumps -/

/-- R181: the encoding of JAL, the link `pc + 4` and the target `pc + offset`, both from the JAL's own
address and modulo 2^32; from an even pc the target of an encoded offset is even. -/
def Obligations.JalLinksAndJumps : Prop :=
  (∀ m w, w &&& 0x0000007F#32 = 0x0000006F#32 →
    decode m w = .instr (.jal (rdOf w) (immJOf w))) ∧
  (∀ s rd off, ∃ t, exec (.jal rd off) s = .next t ∧
    RetiresWriting s t rd (BitVec.ofNat 32 (s.pc.toNat + 4))
      (BitVec.ofInt 32 ((s.pc.toNat : Int) + off.toInt))) ∧
  (∀ (s : State) (w : Word), s.pc.toNat % 2 = 0 →
    (BitVec.ofInt 32 ((s.pc.toNat : Int) + (immJOf w).toInt)).toNat % 2 = 0)

/-- R182: the encoding of JALR and the words of its opcode the decoder refuses; the link; the target,
the sum modulo 2^32 with bit 0 cleared, formed from the base's value before the link is written. -/
def Obligations.JalrLinksAndJumps : Prop :=
  (∀ m w, w &&& 0x0000707F#32 = 0x00000067#32 →
    decode m w = .instr (.jalr (rdOf w) (rs1Of w) (w.extractLsb' 20 12))) ∧
  (∀ m w, w &&& 0x0000007F#32 = 0x00000067#32 → w.extractLsb' 12 3 ≠ 0b000#3 →
    ∃ why, decode m w = .decodeFault why) ∧
  (∀ s rd rs1 imm, ∃ t, exec (.jalr rd rs1 imm) s = .next t ∧
    RetiresWriting s t rd (BitVec.ofNat 32 (s.pc.toNat + 4))
      (BitVec.ofNat 32
        (2 * ((BitVec.ofInt 32 (((s.readReg rs1).toNat : Int) + imm.toInt)).toNat / 2))))

/-- R183: a JALR whose `rd` is its base register jumps by the value the register had and leaves the
link in it; and a call through a register that also receives the link, followed at its target by a
return through that register, comes back to the call site plus 4. -/
def Obligations.SourceBeforeDestination : Prop :=
  (∀ s r imm, r ≠ 0 → ∃ t, exec (.jalr r r imm) s = .next t ∧
    t.readReg r = BitVec.ofNat 32 (s.pc.toNat + 4) ∧
    t.pc = BitVec.ofNat 32
      (2 * ((BitVec.ofInt 32 (((s.readReg r).toNat : Int) + imm.toInt)).toNat / 2))) ∧
  (∀ (s : State) (r : Reg), r ≠ 0 → s.status = .running → s.icount + 2 ≤ s.cfg.budget →
    s.pc.toNat % 4 = 0 → s.pc.toNat + 4 ≤ s.cfg.memSize →
    (s.readReg r).toNat % 4 = 0 → (s.readReg r).toNat + 4 ≤ s.cfg.memSize →
    decode s.cfg.mEnabled (Memory.wordAt s.mem s.pc.toNat) = .instr (.jalr r r 0#12) →
    decode s.cfg.mEnabled (Memory.wordAt s.mem (s.readReg r).toNat) = .instr (.jalr 0 r 0#12) →
    ∃ t u, step s = .next t ∧ t.pc = s.readReg r ∧ step t = .next u ∧
      u.pc = s.pc + 4#32 ∧ u.readReg r = s.pc + 4#32)

/-! ## Upper-immediate forms -/

/-- R191, R192: the encodings of LUI and AUIPC and their results modulo 2^32. -/
def Obligations.UpperImmediates : Prop :=
  (∀ m w, w &&& 0x0000007F#32 = 0x00000037#32 →
    decode m w = .instr (.lui (rdOf w) (w.extractLsb' 12 20))) ∧
  (∀ m w, w &&& 0x0000007F#32 = 0x00000017#32 →
    decode m w = .instr (.auipc (rdOf w) (w.extractLsb' 12 20))) ∧
  (∀ s rd imm, ∃ t, exec (.lui rd imm) s = .next t ∧
    RetiresWriting s t rd (BitVec.ofNat 32 (imm.toNat * 2 ^ 12)) (s.pc + 4#32)) ∧
  (∀ s rd imm, ∃ t, exec (.auipc rd imm) s = .next t ∧
    RetiresWriting s t rd (BitVec.ofNat 32 (s.pc.toNat + imm.toNat * 2 ^ 12)) (s.pc + 4#32))

/-- R193: `lui rd, hi` then `addi rd, rd, lo` builds any constant `c`, with `lo` the signed low 12 bits
and `hi` the upper 20 bits of `c - lo`, which is one more than `c[31:12]` when `c[11] = 1`. -/
def Obligations.LuiThenAddiBuildsConstant : Prop :=
  ∀ (s : State) (rd : Reg) (c : Word), rd ≠ 0 →
    ∃ hi t u,
      hi = (BitVec.ofInt 32 ((c.toNat : Int) - (c.extractLsb' 0 12).toInt)).extractLsb' 12 20 ∧
      hi = c.extractLsb' 12 20 + (if c.getLsbD 11 then 1#20 else 0#20) ∧
      exec (.lui rd hi) s = .next t ∧
      exec (.addi rd rd (c.extractLsb' 0 12)) t = .next u ∧
      u.readReg rd = c

/-! ## Multiply and divide -/

/-- R201: the encoding of MUL on a machine with the extension, its result modulo 2^32 whichever way
the operands are read, and its equality with the shift-and-add routine. -/
def Obligations.MultiplyLow : Prop :=
  (∀ w, w &&& 0xFE00707F#32 = 0x02000033#32 →
    decode true w = .instr (.mul (rdOf w) (rs1Of w) (rs2Of w))) ∧
  (∀ s rd rs1 rs2, s.cfg.mEnabled = true → ∃ t, exec (.mul rd rs1 rs2) s = .next t ∧
    RetiresWriting s t rd (BitVec.ofNat 32 ((s.readReg rs1).toNat * (s.readReg rs2).toNat))
      (s.pc + 4#32) ∧
    RetiresWriting s t rd (BitVec.ofInt 32 ((s.readReg rs1).toInt * (s.readReg rs2).toInt))
      (s.pc + 4#32) ∧
    RetiresWriting s t rd (shiftAndAdd 32 0#32 (s.readReg rs1) (s.readReg rs2)) (s.pc + 4#32))

/-- R202, R203, R204: the encodings of MULH, MULHSU and MULHU, and their results: bits 63 to 32 of the
64-bit product of the operands extended as each instruction reads them. -/
def Obligations.MultiplyHigh : Prop :=
  (∀ w, w &&& 0xFE00707F#32 = 0x02001033#32 →
    decode true w = .instr (.mulh (rdOf w) (rs1Of w) (rs2Of w))) ∧
  (∀ w, w &&& 0xFE00707F#32 = 0x02002033#32 →
    decode true w = .instr (.mulhsu (rdOf w) (rs1Of w) (rs2Of w))) ∧
  (∀ w, w &&& 0xFE00707F#32 = 0x02003033#32 →
    decode true w = .instr (.mulhu (rdOf w) (rs1Of w) (rs2Of w))) ∧
  (∀ s rd rs1 rs2, s.cfg.mEnabled = true → ∃ t, exec (.mulh rd rs1 rs2) s = .next t ∧
    RetiresWriting s t rd
      (((s.readReg rs1).signExtend 64 * (s.readReg rs2).signExtend 64).extractLsb' 32 32)
      (s.pc + 4#32)) ∧
  (∀ s rd rs1 rs2, s.cfg.mEnabled = true → ∃ t, exec (.mulhsu rd rs1 rs2) s = .next t ∧
    RetiresWriting s t rd
      (((s.readReg rs1).signExtend 64 * (s.readReg rs2).zeroExtend 64).extractLsb' 32 32)
      (s.pc + 4#32)) ∧
  (∀ s rd rs1 rs2, s.cfg.mEnabled = true → ∃ t, exec (.mulhu rd rs1 rs2) s = .next t ∧
    RetiresWriting s t rd
      (((s.readReg rs1).zeroExtend 64 * (s.readReg rs2).zeroExtend 64).extractLsb' 32 32)
      (s.pc + 4#32))

/-- R210, derived: the high word of MULHU, MULH or MULHSU, read with its sign, and the low word of MUL
make the exact product of the operands as the instruction reads them. -/
def Obligations.HighAndLowMakeTheProduct : Prop :=
  ∀ (s : State) (r rs1 rs2 : Reg), s.cfg.mEnabled = true → r ≠ 0 →
    ∃ lo hu hs hm, exec (.mul r rs1 rs2) s = .next lo ∧ exec (.mulhu r rs1 rs2) s = .next hu ∧
      exec (.mulh r rs1 rs2) s = .next hs ∧ exec (.mulhsu r rs1 rs2) s = .next hm ∧
      (hu.readReg r).toNat * 2 ^ 32 + (lo.readReg r).toNat =
        (s.readReg rs1).toNat * (s.readReg rs2).toNat ∧
      (hs.readReg r).toInt * 2 ^ 32 + ((lo.readReg r).toNat : Int) =
        (s.readReg rs1).toInt * (s.readReg rs2).toInt ∧
      (hm.readReg r).toInt * 2 ^ 32 + ((lo.readReg r).toNat : Int) =
        (s.readReg rs1).toInt * ((s.readReg rs2).toNat : Int)

/-- R205: the encoding of DIV and its result: all ones for a zero divisor, -2^31 on overflow, else the
quotient of the magnitudes, negative when exactly one operand is negative. -/
def Obligations.DivideSigned : Prop :=
  (∀ w, w &&& 0xFE00707F#32 = 0x02004033#32 →
    decode true w = .instr (.div (rdOf w) (rs1Of w) (rs2Of w))) ∧
  (∀ s rd rs1 rs2, s.cfg.mEnabled = true → ∃ t, exec (.div rd rs1 rs2) s = .next t ∧
    RetiresWriting s t rd
      (if s.readReg rs2 = 0#32 then 0xFFFFFFFF#32
       else if s.readReg rs1 = 0x80000000#32 ∧ s.readReg rs2 = 0xFFFFFFFF#32 then 0x80000000#32
       else if ((s.readReg rs1).toInt < 0 ↔ (s.readReg rs2).toInt < 0) then
         BitVec.ofInt 32
           (((s.readReg rs1).toInt.natAbs / (s.readReg rs2).toInt.natAbs : Nat) : Int)
       else
         BitVec.ofInt 32
           (-(((s.readReg rs1).toInt.natAbs / (s.readReg rs2).toInt.natAbs : Nat) : Int)))
      (s.pc + 4#32))

/-- R207's pseudocode (REM): the encoding and the result: the dividend for a zero divisor, 0 on
overflow, else the remainder of the magnitudes with the sign of the dividend. -/
def Obligations.RemainderSigned : Prop :=
  (∀ w, w &&& 0xFE00707F#32 = 0x02006033#32 →
    decode true w = .instr (.rem (rdOf w) (rs1Of w) (rs2Of w))) ∧
  (∀ s rd rs1 rs2, s.cfg.mEnabled = true → ∃ t, exec (.rem rd rs1 rs2) s = .next t ∧
    RetiresWriting s t rd
      (if s.readReg rs2 = 0#32 then s.readReg rs1
       else if s.readReg rs1 = 0x80000000#32 ∧ s.readReg rs2 = 0xFFFFFFFF#32 then 0#32
       else if (s.readReg rs1).toInt < 0 then
         BitVec.ofInt 32
           (-(((s.readReg rs1).toInt.natAbs % (s.readReg rs2).toInt.natAbs : Nat) : Int))
       else
         BitVec.ofInt 32
           (((s.readReg rs1).toInt.natAbs % (s.readReg rs2).toInt.natAbs : Nat) : Int))
      (s.pc + 4#32))

/-- R206, R208: the encodings of DIVU and REMU and their results: all ones and the dividend for a zero
divisor, else the one quotient and remainder with `a = b * q + r` and `r < b`. -/
def Obligations.DivideUnsigned : Prop :=
  (∀ w, w &&& 0xFE00707F#32 = 0x02005033#32 →
    decode true w = .instr (.divu (rdOf w) (rs1Of w) (rs2Of w))) ∧
  (∀ w, w &&& 0xFE00707F#32 = 0x02007033#32 →
    decode true w = .instr (.remu (rdOf w) (rs1Of w) (rs2Of w))) ∧
  (∀ s rd rs1 rs2, s.cfg.mEnabled = true → ∃ t q, exec (.divu rd rs1 rs2) s = .next t ∧
    RetiresWriting s t rd q (s.pc + 4#32) ∧
    (s.readReg rs2 = 0#32 → q = 0xFFFFFFFF#32) ∧
    (s.readReg rs2 ≠ 0#32 →
      (s.readReg rs2).toNat * q.toNat ≤ (s.readReg rs1).toNat ∧
      (s.readReg rs1).toNat < (s.readReg rs2).toNat * (q.toNat + 1))) ∧
  (∀ s rd rs1 rs2, s.cfg.mEnabled = true → ∃ t r, exec (.remu rd rs1 rs2) s = .next t ∧
    RetiresWriting s t rd r (s.pc + 4#32) ∧
    (s.readReg rs2 = 0#32 → r = s.readReg rs1) ∧
    (s.readReg rs2 ≠ 0#32 → r.toNat < (s.readReg rs2).toNat ∧
      ∃ k, (s.readReg rs1).toNat = (s.readReg rs2).toNat * k + r.toNat))

/-- R207, derived: for a nonzero divisor the quotient of DIV and the remainder of REM give the dividend
back, `a = b * q + r`, modulo 2^32 (R207's sentence holds of the integers but for the overflow pair,
where `q` wraps), with the remainder smaller than the divisor in magnitude and of the dividend's
sign. -/
def Obligations.QuotientAndRemainderRecompose : Prop :=
  ∀ (s : State) (r rs1 rs2 : Reg), s.cfg.mEnabled = true → r ≠ 0 → s.readReg rs2 ≠ 0#32 →
    ∃ t u, exec (.div r rs1 rs2) s = .next t ∧ exec (.rem r rs1 rs2) s = .next u ∧
      s.readReg rs1 = s.readReg rs2 * t.readReg r + u.readReg r ∧
      (u.readReg r).toInt.natAbs < (s.readReg rs2).toInt.natAbs ∧
      (0 ≤ (s.readReg rs1).toInt → 0 ≤ (u.readReg r).toInt) ∧
      ((s.readReg rs1).toInt ≤ 0 → (u.readReg r).toInt ≤ 0)

/-- R209: the corners of the four divisions, none of which faults. -/
def Obligations.DivisionCorners : Prop :=
  (∀ s rd rs1 rs2, s.cfg.mEnabled = true → s.readReg rs2 = 0#32 →
    ∃ t u v w, exec (.div rd rs1 rs2) s = .next t ∧
      RetiresWriting s t rd 0xFFFFFFFF#32 (s.pc + 4#32) ∧
      exec (.divu rd rs1 rs2) s = .next u ∧
      RetiresWriting s u rd 0xFFFFFFFF#32 (s.pc + 4#32) ∧
      exec (.rem rd rs1 rs2) s = .next v ∧
      RetiresWriting s v rd (s.readReg rs1) (s.pc + 4#32) ∧
      exec (.remu rd rs1 rs2) s = .next w ∧
      RetiresWriting s w rd (s.readReg rs1) (s.pc + 4#32)) ∧
  (∀ s rd rs1 rs2, s.cfg.mEnabled = true → s.readReg rs1 = 0x80000000#32 →
    s.readReg rs2 = 0xFFFFFFFF#32 →
    ∃ t u v w, exec (.div rd rs1 rs2) s = .next t ∧
      RetiresWriting s t rd 0x80000000#32 (s.pc + 4#32) ∧
      exec (.divu rd rs1 rs2) s = .next u ∧
      RetiresWriting s u rd 0#32 (s.pc + 4#32) ∧
      exec (.rem rd rs1 rs2) s = .next v ∧
      RetiresWriting s v rd 0#32 (s.pc + 4#32) ∧
      exec (.remu rd rs1 rs2) s = .next w ∧
      RetiresWriting s w rd 0x80000000#32 (s.pc + 4#32))

/-! ## The halt -/

/-- R220: EBREAK is the one word 0x00100073; executing it counts it, halts the machine and changes
nothing else, and the machine then steps no more; with the budget used up it is not fetched. -/
def Obligations.EbreakHalts : Prop :=
  (∀ m w, decode m w = .instr .ebreak ↔ w = 0x00100073#32) ∧
  (∀ s, ∃ t, exec .ebreak s = .next t ∧ t.icount = s.icount + 1 ∧ t.status = .halted ∧
    (∀ r, t.readReg r = s.readReg r) ∧
    (∀ a, Memory.byteAt t.mem a = Memory.byteAt s.mem a) ∧
    t.pc = s.pc ∧ t.report = s.report ∧ t.cfg = s.cfg ∧ ∀ u, step t ≠ .next u) ∧
  (∀ s : State, s.status = .running → s.icount = s.cfg.budget →
    ∃ t, step s = .next t ∧ StopsWith s t .budgetExceeded none)

/-- R242: the result of a run is `x[10]`, as it stood before the EBREAK, for a halted machine and no
other. -/
def Obligations.ResultIsRegisterTen : Prop :=
  (∀ s t, step s = .next t → t.status = .halted → t.result = some (s.readReg 10)) ∧
  (∀ s : State, s.status ≠ .halted → s.result = none)

/-! ## The step -/

/-- R230: when the budget allows it and the word at the pc decodes to an instruction, a step of a
running machine is the execution of that instruction and nothing more. -/
def Obligations.StepRunsTheDecodedInstruction : Prop :=
  ∀ (s : State) (w : Word) (i : Instr), s.status = .running → s.icount < s.cfg.budget →
    s.pc.toNat % 4 = 0 → s.pc.toNat + 4 ≤ s.cfg.memSize →
    w = BitVec.ofNat 32 ((Memory.byteAt s.mem s.pc.toNat).toNat +
      2 ^ 8 * (Memory.byteAt s.mem (s.pc.toNat + 1)).toNat +
      2 ^ 16 * (Memory.byteAt s.mem (s.pc.toNat + 2)).toNat +
      2 ^ 24 * (Memory.byteAt s.mem (s.pc.toNat + 3)).toNat) →
    decode s.cfg.mEnabled w = .instr i → step s = exec i s

/-- R254: with the budget used up a step ends the run in BudgetExceeded before anything is fetched,
whatever the pc; no instruction raises it. -/
def Obligations.BudgetExceededRule : Prop :=
  (∀ s : State, s.status = .running → s.cfg.budget ≤ s.icount →
    ∃ t, step s = .next t ∧ StopsWith s t .budgetExceeded none) ∧
  (∀ (i : Instr) (s t : State) (rpc : Word) (w : Option Word), exec i s = .next t →
    t.report = some ⟨.budgetExceeded, rpc, w⟩ → t.report = s.report)

/-- R251: a fetched word that no row of the table accepts, for its bits or for the toggle, ends the
run in DecodeFault with the word in the report and nothing executed; no instruction raises it. -/
def Obligations.DecodeFaultRule : Prop :=
  (∀ s : State, s.status = .running → s.icount < s.cfg.budget →
    s.pc.toNat % 4 = 0 → s.pc.toNat + 4 ≤ s.cfg.memSize →
    (∀ row ∈ encodingTable,
      ¬ row.Accepts s.cfg.mEnabled (Memory.wordAt s.mem s.pc.toNat)) →
    ∃ t, step s = .next t ∧
      StopsWith s t .decodeFault (some (Memory.wordAt s.mem s.pc.toNat))) ∧
  (∀ (i : Instr) (s t : State) (rpc : Word) (w : Option Word), exec i s = .next t →
    t.report = some ⟨.decodeFault, rpc, w⟩ → t.report = s.report)

/-- R252: AlignmentFault, raised by the fetch of a pc that is not a multiple of 4, without a word, and
by LW and SW of an address that is not, with the fetched word. -/
def Obligations.AlignmentFaultRule : Prop :=
  (∀ s : State, s.status = .running → s.icount < s.cfg.budget → s.pc.toNat % 4 ≠ 0 →
    ∃ t, step s = .next t ∧ StopsWith s t .alignmentFault none) ∧
  (∀ (s : State) (w : Word) (i : Instr) (rd rs1 rs2 : Reg) (imm : BitVec 12),
    s.status = .running → s.icount < s.cfg.budget →
    s.pc.toNat % 4 = 0 → s.pc.toNat + 4 ≤ s.cfg.memSize →
    w = Memory.wordAt s.mem s.pc.toNat → decode s.cfg.mEnabled w = .instr i →
    (i = .lw rd rs1 imm ∨ i = .sw rs1 rs2 imm) →
    (s.effAddr rs1 imm).toNat % 4 ≠ 0 →
    ∃ t, step s = .next t ∧ StopsWith s t .alignmentFault (some w))

/-- R253: OutOfBoundsFault, raised by the fetch of an aligned pc whose word is not in memory, without a
word, and by LW and SW of such an address, with the fetched word. -/
def Obligations.OutOfBoundsFaultRule : Prop :=
  (∀ s : State, s.status = .running → s.icount < s.cfg.budget → s.pc.toNat % 4 = 0 →
    s.cfg.memSize < s.pc.toNat + 4 →
    ∃ t, step s = .next t ∧ StopsWith s t .outOfBoundsFault none) ∧
  (∀ (s : State) (w : Word) (i : Instr) (rd rs1 rs2 : Reg) (imm : BitVec 12),
    s.status = .running → s.icount < s.cfg.budget →
    s.pc.toNat % 4 = 0 → s.pc.toNat + 4 ≤ s.cfg.memSize →
    w = Memory.wordAt s.mem s.pc.toNat → decode s.cfg.mEnabled w = .instr i →
    (i = .lw rd rs1 imm ∨ i = .sw rs1 rs2 imm) →
    (s.effAddr rs1 imm).toNat % 4 = 0 → s.cfg.memSize < (s.effAddr rs1 imm).toNat + 4 →
    ∃ t, step s = .next t ∧ StopsWith s t .outOfBoundsFault (some w))

/-- R166, R224, R225, R226: a running machine that fetches a sub-word load or store, a fence, ECALL, any
other SYSTEM word but EBREAK, or (R101) a word whose low two bits are not 11 stops with a DecodeFault
that reports the word, and changes nothing else. -/
def Obligations.UnimplementedWordsEndTheRun : Prop :=
  ∀ (s : State) (w : Word), s.status = .running → s.icount < s.cfg.budget →
    s.pc.toNat % 4 = 0 → s.pc.toNat + 4 ≤ s.cfg.memSize →
    w = Memory.wordAt s.mem s.pc.toNat →
    ((w &&& 0x7F#32 = 0x03#32 ∧ w.extractLsb' 12 3 ≠ 0b010#3) ∨
      (w &&& 0x7F#32 = 0x23#32 ∧ w.extractLsb' 12 3 ≠ 0b010#3) ∨
      w &&& 0x7F#32 = 0x0F#32 ∨
      (w &&& 0x7F#32 = 0x73#32 ∧ w ≠ 0x00100073#32) ∨
      w &&& 0x3#32 ≠ 0x3#32) →
    ∃ t, step s = .next t ∧ StopsWith s t .decodeFault (some w)

/-- R256: a step that ends a run by a condition changes nothing but the status and the report, the
machine is never resumed, and the report is one of the six rows of R255, each with its cause. -/
def Obligations.EndingStepsArePrecise : Prop :=
  ∀ (s t : State), step s = .next t → (t.status = .faulted ∨ t.status = .budgetExceeded) →
    ∃ c w, StopsWith s t c w ∧ (∀ u, step t ≠ .next u) ∧
      ((c = .budgetExceeded ∧ w = none ∧ s.cfg.budget ≤ s.icount) ∨
       (c = .alignmentFault ∧ w = none ∧ s.pc.toNat % 4 ≠ 0) ∨
       (c = .outOfBoundsFault ∧ w = none ∧ s.pc.toNat % 4 = 0 ∧
         s.cfg.memSize < s.pc.toNat + 4) ∨
       (c = .decodeFault ∧ w = some (Memory.wordAt s.mem s.pc.toNat) ∧
         ∀ i, decode s.cfg.mEnabled (Memory.wordAt s.mem s.pc.toNat) ≠ .instr i) ∨
       (w = some (Memory.wordAt s.mem s.pc.toNat) ∧
         ∃ i rd rs1 rs2 imm,
           decode s.cfg.mEnabled (Memory.wordAt s.mem s.pc.toNat) = .instr i ∧
           (i = .lw rd rs1 imm ∨ i = .sw rs1 rs2 imm) ∧
           ((c = .alignmentFault ∧ (s.effAddr rs1 imm).toNat % 4 ≠ 0) ∨
            (c = .outOfBoundsFault ∧ (s.effAddr rs1 imm).toNat % 4 = 0 ∧
              s.cfg.memSize < (s.effAddr rs1 imm).toNat + 4))))

/-- R34, R236, R239: from every running state a step answers a next state with the same configuration,
and either the machine runs on with one instruction more counted, or it halted with one more, or it
ended by a condition with none more. -/
def Obligations.EveryStepRetiresOrEnds : Prop :=
  ∀ s : State, s.status = .running → ∃ t, step s = .next t ∧ t.cfg = s.cfg ∧
    ((t.status = .running ∧ t.icount = s.icount + 1 ∧ t.report = s.report) ∨
     (t.status = .halted ∧ t.icount = s.icount + 1 ∧ t.report = s.report ∧ t.pc = s.pc) ∨
     (t.status = .faulted ∧ t.icount = s.icount ∧ t.pc = s.pc) ∨
     (t.status = .budgetExceeded ∧ t.icount = s.icount ∧ t.pc = s.pc))

/-- R221: a machine that has ended takes no step, and running it changes nothing. (The name of the
outcome, a fault, is the model's: log 4.) -/
def Obligations.EndedMachineTakesNoStep : Prop :=
  ∀ s : State, s.Ended → (∀ t, step s ≠ .next t) ∧ s.run = s

/-- R236: every run ends, after at most the budget left and one step more. (That bound is the one
`State.run` uses, the model's reading of R231 and R236: log 14.) -/
def Obligations.EveryRunEnds : Prop :=
  ∀ s : State, s.status = .running →
    ∃ k, k ≤ s.cfg.budget - s.icount + 1 ∧ Host.Core.run core k s = .next s.run ∧ s.run.Ended

/-! ## Whole-machine rules -/

/-- Every step keeps the invariant: memory stays canonical and inside `MEM_SIZE`, `x[0]`'s slot stays
0, no more instructions retire than the budget allows, the report agrees with the status (R23, R35,
R39, R231, R255). -/
def Obligations.StepKeepsInvariant : Prop :=
  ∀ s t : State, s.Inv → step s = .next t → t.Inv

/-- The invariant holds after every construction whose configuration is in R9's range and whose image
is canonical and inside memory; so it does after `State.reset`, whose configuration and image are the
model's choice (log 2, log 3). -/
def Obligations.ResetMeetsInvariant : Prop :=
  (∀ (c : Config) (image : Memory), c.Valid → Memory.Wf image →
    (∀ x ∈ image, x.1 < c.memSize) → (State.resetWith c image).Inv) ∧
  State.reset.Inv

/-- R27, R32: after construction every register is zero and the pc is the entry address. -/
def Obligations.ResetRegistersAndPc : Prop :=
  ∀ (c : Config) (image : Memory),
    (∀ r, (State.resetWith c image).readReg r = 0x00000000#32) ∧
    (State.resetWith c image).pc = c.entryPc

/-- The rest of R43, some of whose rows the spec marks as derived ("the run starts in Running", from
R34; no report, from R35): memory is `MEM_INIT`, the machine is running without a report, nothing has
retired, the configuration is as supplied. -/
def Obligations.ResetMemoryAndControl : Prop :=
  ∀ (c : Config) (image : Memory),
    (∀ a, Memory.byteAt (State.resetWith c image).mem a = Memory.byteAt image a) ∧
    (State.resetWith c image).status = .running ∧
    (State.resetWith c image).report = none ∧
    (State.resetWith c image).icount = 0 ∧
    (State.resetWith c image).cfg = c

/-- R9, R39: the model's images leave nothing of `MEM_INIT` out: whatever byte each address below
`MEM_SIZE` is to hold, some canonical image inside memory holds it. -/
def Obligations.EveryMemInitIsAnImage : Prop :=
  ∀ (n : Nat) (f : Nat → Byte), ∃ image : Memory, Memory.Wf image ∧
    (∀ x ∈ image, x.1 < n) ∧ ∀ a, a < n → Memory.byteAt image a = f a

/-- R25: an instruction changes no register but the one its `rd` field names. -/
def Obligations.OnlyTheDestinationChanges : Prop :=
  ∀ (i : Instr) (s t : State) (r : Reg), exec i s = .next t → dest i ≠ some r →
    t.readReg r = s.readReg r

/-- R39: only SW changes memory, and only the four bytes at its address. -/
def Obligations.OnlyStoresChangeMemory : Prop :=
  (∀ (i : Instr) (s t : State) (a : Nat), exec i s = .next t → isStore i = false →
    Memory.byteAt t.mem a = Memory.byteAt s.mem a) ∧
  (∀ (s t : State) (rs1 rs2 : Reg) (imm : BitVec 12) (a : Nat),
    exec (.sw rs1 rs2 imm) s = .next t →
    (a < (s.effAddr rs1 imm).toNat ∨ (s.effAddr rs1 imm).toNat + 4 ≤ a) →
    Memory.byteAt t.mem a = Memory.byteAt s.mem a)

/-- R260: no instruction but LW and SW raises a condition at its execution: every other one retires,
and only EBREAK changes the status. -/
def Obligations.OnlyLoadsAndStoresFault : Prop :=
  ∀ (i : Instr) (s : State), isLoad i = false → isStore i = false →
    ∃ t, exec i s = .next t ∧ t.report = s.report ∧ t.icount = s.icount + 1 ∧
      ((i = .ebreak ∧ t.status = .halted) ∨ (i ≠ .ebreak ∧ t.status = s.status))

/-- R178, R186, R261: a branch or jump retires whatever its target; a target that is not a multiple of
4, or is outside memory, is reported by the next step's fetch, with the target as the pc and no
word. -/
def Obligations.TargetsAreCheckedByTheNextFetch : Prop :=
  ∀ (i : Instr) (s : State), isTransfer i = true → s.status = .running →
    s.icount + 1 < s.cfg.budget →
    ∃ t, exec i s = .next t ∧ t.status = .running ∧ t.icount = s.icount + 1 ∧
      (t.pc.toNat % 4 ≠ 0 → ∃ u, step t = .next u ∧ StopsWith t u .alignmentFault none) ∧
      (t.pc.toNat % 4 = 0 → s.cfg.memSize < t.pc.toNat + 4 →
        ∃ u, step t = .next u ∧ StopsWith t u .outOfBoundsFault none)

/-- R34, R36, R38: the run status, the report, the instruction count, the entry address, the toggle and
the budget are hidden from programs: two states that agree on the registers, the bytes of memory, the
pc and the memory size agree on them after any instruction. -/
def Obligations.ControlStateIsHidden : Prop :=
  ∀ (i : Instr) (s s' : State), SameToProgram s s' →
    ∃ t t', exec i s = .next t ∧ exec i s' = .next t' ∧ SameToProgram t t'

/-! ## Registers and memory -/

/-- R22: a register read gives 0 for `x[0]`, and for the others the word last written, zero if nothing
has been written since reset. -/
def Obligations.RegisterFile : Prop :=
  (∀ s : State, s.readReg 0 = 0#32 ∧
    (∀ r v, r ≠ 0 → (s.writeReg r v).readReg r = v) ∧
    (∀ r q v, q ≠ r → (s.writeReg r v).readReg q = s.readReg q)) ∧
  (∀ (c : Config) (image : Memory) (r : Reg), (State.resetWith c image).readReg r = 0#32)

/-- R23: a write to `x[0]` changes nothing, a write to another register stores the whole word, and an
instruction whose `rd` is `x0` has all its other effects: the pc update of JAL and JALR, the access
and the faults of LW. -/
def Obligations.WritesToRegisterZero : Prop :=
  (∀ s : State, (∀ v, s.writeReg 0 v = s) ∧
    (∀ r v, r ≠ 0 → (s.writeReg r v).readReg r = v) ∧
    (∀ r v, (s.writeReg r v).readReg 0 = 0#32)) ∧
  (∀ s off, ∃ t, exec (.jal 0 off) s = .next t ∧
    RetiresTo s t (BitVec.ofInt 32 ((s.pc.toNat : Int) + off.toInt))) ∧
  (∀ s rs1 imm, ∃ t, exec (.jalr 0 rs1 imm) s = .next t ∧ RetiresTo s t (s.jalrTarget rs1 imm)) ∧
  (∀ s rs1 imm, s.checkAccess (s.effAddr rs1 imm) = none →
    ∃ t, exec (.lw 0 rs1 imm) s = .next t ∧ RetiresTo s t (s.pc + 4#32)) ∧
  (∀ s rs1 imm c, s.checkAccess (s.effAddr rs1 imm) = some c →
    ∃ t, exec (.lw 0 rs1 imm) s = .next t ∧ StopsWith s t c (some (encode (.lw 0 rs1 imm))))

/-- R52: the access check, alignment before bounds, in natural numbers; and what its callers make of
the fault: LW and SW report their own word, the fetch reports none. -/
def Obligations.AccessCheck : Prop :=
  (∀ (s : State) (addr : Word),
    (addr.toNat % 4 ≠ 0 → s.checkAccess addr = some .alignmentFault) ∧
    (addr.toNat % 4 = 0 → s.cfg.memSize < addr.toNat + 4 →
      s.checkAccess addr = some .outOfBoundsFault) ∧
    (addr.toNat % 4 = 0 → addr.toNat + 4 ≤ s.cfg.memSize → s.checkAccess addr = none)) ∧
  (∀ s rd rs1 imm c, s.checkAccess (s.effAddr rs1 imm) = some c →
    ∃ t, exec (.lw rd rs1 imm) s = .next t ∧ StopsWith s t c (some (encode (.lw rd rs1 imm)))) ∧
  (∀ s rs1 rs2 imm c, s.checkAccess (s.effAddr rs1 imm) = some c →
    ∃ t, exec (.sw rs1 rs2 imm) s = .next t ∧ StopsWith s t c (some (encode (.sw rs1 rs2 imm)))) ∧
  (∀ (s : State) (c : Condition), s.status = .running → s.icount < s.cfg.budget →
    s.checkAccess s.pc = some c → ∃ t, step s = .next t ∧ StopsWith s t c none)

/-- R53, R54: `MemRead` and `MemWrite`: the condition of a failed check and no write, or the
little-endian word, or its four bytes and no other change. -/
def Obligations.MemoryPrimitives : Prop :=
  (∀ (s : State) (addr v : Word) (c : Condition), s.checkAccess addr = some c →
    s.memRead addr = .error c ∧ s.memWrite addr v = .error c) ∧
  (∀ (s : State) (addr : Word), s.checkAccess addr = none →
    s.memRead addr = .ok (BitVec.ofNat 32 ((Memory.byteAt s.mem addr.toNat).toNat +
      2 ^ 8 * (Memory.byteAt s.mem (addr.toNat + 1)).toNat +
      2 ^ 16 * (Memory.byteAt s.mem (addr.toNat + 2)).toNat +
      2 ^ 24 * (Memory.byteAt s.mem (addr.toNat + 3)).toNat))) ∧
  (∀ (s : State) (addr v : Word), s.checkAccess addr = none →
    ∃ t, s.memWrite addr v = .ok t ∧
      Memory.byteAt t.mem addr.toNat = v.extractLsb' 0 8 ∧
      Memory.byteAt t.mem (addr.toNat + 1) = v.extractLsb' 8 8 ∧
      Memory.byteAt t.mem (addr.toNat + 2) = v.extractLsb' 16 8 ∧
      Memory.byteAt t.mem (addr.toNat + 3) = v.extractLsb' 24 8 ∧
      (∀ a, (a < addr.toNat ∨ addr.toNat + 4 ≤ a) →
        Memory.byteAt t.mem a = Memory.byteAt s.mem a) ∧
      t.regs = s.regs ∧ t.pc = s.pc ∧ t.status = s.status ∧ t.report = s.report ∧
      t.icount = s.icount ∧ t.cfg = s.cfg)

/-- R61: a word written is the word read back, and a word at any other aligned address reads as
before. -/
def Obligations.StoredWordReadsBack : Prop :=
  ∀ (s t : State) (a b v : Word), s.memWrite a v = .ok t →
    t.memRead a = .ok v ∧ (b ≠ a → t.memRead b = s.memRead b)

/-- R65: a store is seen by the very next fetch: when SW writes over the instruction that follows it,
the next step executes what was stored. -/
def Obligations.FetchSeesTheStore : Prop :=
  ∀ (s t : State) (rs1 rs2 : Reg) (imm : BitVec 12) (i : Instr),
    s.status = .running → s.icount + 1 < s.cfg.budget →
    (s.effAddr rs1 imm).toNat % 4 = 0 → (s.effAddr rs1 imm).toNat + 4 ≤ s.cfg.memSize →
    s.effAddr rs1 imm = s.pc + 4#32 → decode s.cfg.mEnabled (s.readReg rs2) = .instr i →
    exec (.sw rs1 rs2 imm) s = .next t → step t = exec i t

/-! ## Encoding -/

/-- Decoding the word of a well-formed instruction gives it back, with every operand at every value
its encoding admits, on a machine whose toggle allows the instruction (R82 to R96, R99). -/
def Obligations.DecodeOfEncode : Prop :=
  ∀ (i : Instr) (m : Bool), i.wellFormed = true → i.enabledBy m = true →
    decode m (encode i) = .instr i

/-- Encoding what a word decodes to gives the word back, and what it decodes to is well-formed and
enabled: each instruction has one word (R80, R103). -/
def Obligations.EncodeOfDecode : Prop :=
  ∀ (m : Bool) (w : Word) (i : Instr), decode m w = .instr i →
    encode i = w ∧ i.wellFormed = true ∧ i.enabledBy m = true

/-- R96, R98, R103: the decoder is the opcode table, whose 40 rows are pairwise disjoint: a word decodes
to an instruction exactly when a row accepts it and builds that instruction, and otherwise it is a
DecodeFault. -/
def Obligations.DecoderIsTheTable : Prop :=
  encodingTable.length = 40 ∧
  encodingTable.Pairwise (fun p q =>
    ∀ w : Word, ¬ (w &&& p.mask = p.pattern ∧ w &&& q.mask = q.pattern)) ∧
  ∀ (m : Bool) (w : Word),
    (∀ i, decode m w = .instr i ↔
      ∃ row ∈ encodingTable, row.Accepts m w ∧ row.build w = i) ∧
    ((∀ row ∈ encodingTable, ¬ row.Accepts m w) → ∃ why, decode m w = .decodeFault why)

/-- R88 to R92: the five immediates of a word as signed numbers, from the word's bits (the upper
immediate has its low 12 bits zero), and the instructions whose operand each one is. -/
def Obligations.ImmediateAssembly : Prop :=
  (∀ w : Word,
    (imm12 (immIOf w)).toInt =
      -(2 ^ 11 * ((w.extractLsb' 31 1).toNat : Int)) + ((w.extractLsb' 20 11).toNat : Int) ∧
    (imm12 (immSOf w)).toInt =
      -(2 ^ 11 * ((w.extractLsb' 31 1).toNat : Int)) +
        2 ^ 5 * ((w.extractLsb' 25 6).toNat : Int) + ((w.extractLsb' 7 5).toNat : Int) ∧
    (immB (immBOf w)).toInt =
      -(2 ^ 12 * ((w.extractLsb' 31 1).toNat : Int)) +
        2 ^ 11 * ((w.extractLsb' 7 1).toNat : Int) +
        2 ^ 5 * ((w.extractLsb' 25 6).toNat : Int) + 2 * ((w.extractLsb' 8 4).toNat : Int) ∧
    immU (immUOf w) = w &&& 0xFFFFF000#32 ∧
    (immJ (immJOf w)).toInt =
      -(2 ^ 20 * ((w.extractLsb' 31 1).toNat : Int)) +
        2 ^ 12 * ((w.extractLsb' 12 8).toNat : Int) +
        2 ^ 11 * ((w.extractLsb' 20 1).toNat : Int) +
        2 * ((w.extractLsb' 21 10).toNat : Int)) ∧
  (∀ (m : Bool) (w : Word) (rd rs1 : Reg) (imm : BitVec 12) (i : Instr), decode m w = .instr i →
    i ∈ [.addi rd rs1 imm, .slti rd rs1 imm, .sltiu rd rs1 imm, .xori rd rs1 imm, .ori rd rs1 imm,
      .andi rd rs1 imm, .lw rd rs1 imm, .jalr rd rs1 imm] → imm = immIOf w) ∧
  (∀ (m : Bool) (w : Word) (rs1 rs2 : Reg) (imm : BitVec 12),
    decode m w = .instr (.sw rs1 rs2 imm) → imm = immSOf w) ∧
  (∀ (m : Bool) (w : Word) (rs1 rs2 : Reg) (off : BitVec 13) (i : Instr), decode m w = .instr i →
    i ∈ [.beq rs1 rs2 off, .bne rs1 rs2 off, .blt rs1 rs2 off, .bge rs1 rs2 off, .bltu rs1 rs2 off,
      .bgeu rs1 rs2 off] → off = immBOf w) ∧
  (∀ (m : Bool) (w : Word) (rd : Reg) (imm : BitVec 20) (i : Instr), decode m w = .instr i →
    i ∈ [.lui rd imm, .auipc rd imm] → imm = immUOf w) ∧
  (∀ (m : Bool) (w : Word) (rd : Reg) (off : BitVec 21),
    decode m w = .instr (.jal rd off) → off = immJOf w)

/-- R99: with the extension disabled every word of opcode 0110011 and funct7 0000001 is a DecodeFault,
with it enabled every one is a multiply/divide instruction, and no other word depends on the toggle. -/
def Obligations.ToggleGovernsMulDivOnly : Prop :=
  ∀ w : Word,
    (w &&& 0xFE00007F#32 = 0x02000033#32 →
      (∃ why, decode false w = .decodeFault why) ∧
      ∃ i, decode true w = .instr i ∧ i.isMulDiv = true) ∧
    (w &&& 0xFE00007F#32 ≠ 0x02000033#32 → decode true w = decode false w)

/-- R106, part: words of several families decode as the spec's worked table says. -/
def Obligations.SampleWordsDecode : Prop :=
  decode false 0x00500093#32 = .instr (.addi 1 0 5#12) ∧
  decode false 0x402081B3#32 = .instr (.sub 3 1 2) ∧
  decode false 0x40335293#32 = .instr (.srai 5 6 3#5) ∧
  decode false 0x00812283#32 = .instr (.lw 5 2 8#12) ∧
  decode false 0x00512623#32 = .instr (.sw 2 5 12#12) ∧
  decode false 0xFEB51EE3#32 = .instr (.bne 10 11 (BitVec.ofInt 13 (-4))) ∧
  decode false 0xFF9FF06F#32 = .instr (.jal 0 (BitVec.ofInt 21 (-8))) ∧
  decode false 0x00008067#32 = .instr (.jalr 0 1 0#12) ∧
  decode false 0x123452B7#32 = .instr (.lui 5 0x12345#20) ∧
  decode true 0x027302B3#32 = .instr (.mul 5 6 7) ∧
  decode false 0x00100073#32 = .instr .ebreak

/-! ## Pseudo-instructions -/

/-- R105: each word of an expansion decodes to the instruction expanded to, whatever the toggle; `li`
leaves its constant and `la` its symbol's address in `rd`; `call` goes to its label with the return
address in `x1`, `tail` goes there with the AUIPC's sum in `x6`; and the last word of an expansion the
hardware does not implement is a DecodeFault, each word before it an instruction. (Labels and symbols
as offsets and distances, and the words of the unimplemented expansions, are the model's: log 15.) -/
def Obligations.PseudoInstructionsExpand : Prop :=
  (∀ (p : Pseudo) (m : Bool), (∀ i ∈ p.expand, i.wellFormed = true) →
    p.words.map (decode m) = p.expand.map DecodeResult.instr) ∧
  (∀ s rd c, ∃ t, execAll (Pseudo.li rd c).expand s = .next t ∧
    SequenceWriting s t (Pseudo.li rd c).expand.length rd c
      (s.pc + BitVec.ofNat 32 (4 * (Pseudo.li rd c).expand.length))) ∧
  (∀ s rd d, ∃ t, execAll (Pseudo.la rd d).expand s = .next t ∧
    SequenceWriting s t 2 rd (s.pc + d) (s.pc + 8#32)) ∧
  (∀ s d, ∃ t, execAll (Pseudo.call d).expand s = .next t ∧
    SequenceWriting s t 2 1 (s.pc + 8#32) (BitVec.ofNat 32 (2 * ((s.pc + d).toNat / 2)))) ∧
  (∀ s d, ∃ t, execAll (Pseudo.tail d).expand s = .next t ∧
    SequenceWriting s t 2 6 (s.pc + immU (highPart d))
      (BitVec.ofNat 32 (2 * ((s.pc + d).toNat / 2)))) ∧
  (∀ (u : UnimplementedPseudo) (m : Bool), ∃ ws w why, u.words = ws ++ [w] ∧
    decode m w = .decodeFault why ∧ ∀ v ∈ ws, ∃ i, decode m v = .instr i)
end

