-- ==== Sys2Proof/Laws/Memory.lean ====
section
/-!
SUPPORT. The memory's laws: read after write, and the canonical form every operation keeps.
-/

namespace Sys2Proof.Machine

/-! ## Read after write of one byte -/

theorem Memory.byteAt_insertByte (m : Memory) (a b : Nat) (v : Byte) :
    Memory.byteAt (Memory.insertByte m a v) b = if a = b then v else Memory.byteAt m b := by
  induction m with
  | nil => simp [Memory.insertByte, Memory.byteAt]
  | cons c m ih =>
    obtain ⟨k, x⟩ := c
    simp only [Memory.insertByte]
    split
    · rfl
    · split
      · next h => subst h; by_cases hb : a = b <;> simp [Memory.byteAt, hb]
      · next h =>
        by_cases hk : k = b
        · simp [Memory.byteAt, hk, show a ≠ b by omega]
        · simp [Memory.byteAt, hk, ih]

theorem Memory.byteAt_filter_ne (m : Memory) (a b : Nat) :
    Memory.byteAt (m.filter (fun c => c.1 ≠ a)) b =
      if a = b then unlistedByte else Memory.byteAt m b := by
  induction m with
  | nil => simp [Memory.byteAt]
  | cons c m ih =>
    obtain ⟨k, x⟩ := c
    by_cases hk : k = a
    · subst hk
      have : List.filter (fun c : Host.Cell => decide (c.1 ≠ k)) ((k, x) :: m) =
          List.filter (fun c : Host.Cell => decide (c.1 ≠ k)) m := by simp
      rw [this, ih]
      by_cases hb : k = b <;> simp [Memory.byteAt, hb]
    · have : List.filter (fun c : Host.Cell => decide (c.1 ≠ a)) ((k, x) :: m) =
          (k, x) :: List.filter (fun c : Host.Cell => decide (c.1 ≠ a)) m := by simp [hk]
      rw [this]
      by_cases hb : k = b
      · subst hb; simp [Memory.byteAt, Ne.symm hk]
      · simp only [Memory.byteAt, hb, if_false, ih]

/-- A byte reads as last written; every other byte is as before. -/
theorem Memory.byteAt_setByte (m : Memory) (a b : Nat) (v : Byte) :
    Memory.byteAt (Memory.setByte m a v) b = if a = b then v else Memory.byteAt m b := by
  unfold Memory.setByte
  split
  · next h => rw [Memory.byteAt_filter_ne, h]
  · exact Memory.byteAt_insertByte m a b v

/-! ## Words -/

/-- What each byte reads after a word is stored at `a` (R54). -/
theorem Memory.byteAt_setWord (m : Memory) (a b : Nat) (v : Word) :
    Memory.byteAt (Memory.setWord m a v) b =
      if b < a ∨ a + 4 ≤ b then Memory.byteAt m b else byteOf v (b - a) := by
  simp only [Memory.setWord, Memory.byteAt_setByte]
  by_cases h : b < a ∨ a + 4 ≤ b
  · rw [if_pos h, if_neg (by omega), if_neg (by omega), if_neg (by omega), if_neg (by omega)]
  · rw [if_neg h]
    obtain rfl | rfl | rfl | rfl : b = a ∨ b = a + 1 ∨ b = a + 2 ∨ b = a + 3 := by omega
    all_goals simp

/-- The four bytes of a word make the word again (R53, R54). -/
@[simp] theorem wordOfBytes_byteOf (v : Word) :
    wordOfBytes (byteOf v 0) (byteOf v 1) (byteOf v 2) (byteOf v 3) = v := by
  apply BitVec.eq_of_getLsbD_eq
  intro i hi
  simp only [wordOfBytes, byteOf, BitVec.getLsbD_append, BitVec.getLsbD_extractLsb']
  by_cases h1 : i < 8
  · simp [h1]
  · by_cases h2 : i - 8 < 8
    · simp [h1, h2, show 8 + (i - 8) = i by omega]
    · by_cases h3 : i - 8 - 8 < 8
      · simp [h1, h2, h3, show 16 + (i - 8 - 8) = i by omega]
      · simp [h1, h2, h3, show 24 + (i - 8 - 8 - 8) = i by omega,
          show i - 8 - 8 - 8 < 8 by omega]

/-- Reading the word just stored (R53, R54). -/
@[simp] theorem Memory.wordAt_setWord (m : Memory) (a : Nat) (v : Word) :
    Memory.wordAt (Memory.setWord m a v) a = v := by
  simp [Memory.wordAt, Memory.byteAt_setWord]

/-- A word read depends on its four bytes alone. -/
theorem Memory.wordAt_congr {m n : Memory} {a : Nat}
    (h : ∀ b, a ≤ b → b < a + 4 → Memory.byteAt m b = Memory.byteAt n b) :
    Memory.wordAt m a = Memory.wordAt n a := by
  simp only [Memory.wordAt]
  rw [h a (by omega) (by omega), h (a + 1) (by omega) (by omega), h (a + 2) (by omega) (by omega),
    h (a + 3) (by omega) (by omega)]

/-! ## The canonical form -/

theorem Memory.mem_insertByte {m : Memory} {a : Nat} {v : Byte} {c : Host.Cell}
    (h : c ∈ Memory.insertByte m a v) : c = (a, v) ∨ c ∈ m := by
  induction m with
  | nil => simpa [Memory.insertByte] using h
  | cons d m ih =>
    obtain ⟨k, x⟩ := d
    simp only [Memory.insertByte] at h
    split at h
    · simpa using h
    · split at h
      · rcases List.mem_cons.1 h with h | h
        · exact .inl h
        · exact .inr (List.mem_cons_of_mem _ h)
      · rcases List.mem_cons.1 h with h | h
        · exact .inr (by simp [h])
        · exact (ih h).imp id (List.mem_cons_of_mem _)

theorem Memory.rising_insertByte {m : Memory} (a : Nat) (v : Byte) (h : Memory.Rising m) :
    Memory.Rising (Memory.insertByte m a v) := by
  induction m with
  | nil => simp [Memory.insertByte, Memory.Rising]
  | cons d m ih =>
    obtain ⟨k, x⟩ := d
    obtain ⟨hk, hm⟩ := List.pairwise_cons.1 h
    simp only [Memory.insertByte]
    split
    · next hlt =>
      refine List.pairwise_cons.2 ⟨fun c hc => ?_, h⟩
      rcases List.mem_cons.1 hc with rfl | hc
      · exact hlt
      · exact Nat.lt_trans hlt (hk c hc)
    · split
      · next he => subst he; exact List.pairwise_cons.2 ⟨hk, hm⟩
      · next hlt hne =>
        refine List.pairwise_cons.2 ⟨fun c hc => ?_, ih hm⟩
        rcases Memory.mem_insertByte hc with rfl | hc
        · show k < a
          omega
        · exact hk c hc

/-- Writing a byte keeps the canonical form. -/
theorem Memory.wf_setByte {m : Memory} (a : Nat) (v : Byte) (h : Memory.Wf m) :
    Memory.Wf (Memory.setByte m a v) := by
  unfold Memory.setByte
  split
  · exact ⟨h.1.filter _, fun c hc => h.2 c (List.mem_of_mem_filter hc)⟩
  · next hv =>
    refine ⟨Memory.rising_insertByte a v h.1, fun c hc => ?_⟩
    rcases Memory.mem_insertByte hc with rfl | hc
    · exact hv
    · exact h.2 c hc

/-- Writing a byte lists no address but the written one anew. -/
theorem Memory.mem_setByte {m : Memory} {a : Nat} {v : Byte} {c : Host.Cell}
    (h : c ∈ Memory.setByte m a v) : c.1 = a ∨ c ∈ m := by
  unfold Memory.setByte at h
  split at h
  · exact .inr (List.mem_of_mem_filter h)
  · rcases Memory.mem_insertByte h with rfl | h
    · exact .inl rfl
    · exact .inr h

/-- Storing a word keeps the canonical form. -/
theorem Memory.wf_setWord {m : Memory} (a : Nat) (v : Word) (h : Memory.Wf m) :
    Memory.Wf (Memory.setWord m a v) :=
  Memory.wf_setByte _ _ (Memory.wf_setByte _ _ (Memory.wf_setByte _ _ (Memory.wf_setByte _ _ h)))

/-- Storing a word lists no address but its four anew. -/
theorem Memory.mem_setWord {m : Memory} {a : Nat} {v : Word} {c : Host.Cell}
    (h : c ∈ Memory.setWord m a v) : (a ≤ c.1 ∧ c.1 < a + 4) ∨ c ∈ m := by
  unfold Memory.setWord at h
  rcases Memory.mem_setByte h with h | h
  · exact .inl (by omega)
  rcases Memory.mem_setByte h with h | h
  · exact .inl (by omega)
  rcases Memory.mem_setByte h with h | h
  · exact .inl (by omega)
  rcases Memory.mem_setByte h with h | h
  · exact .inl (by omega)
  exact .inr h

/-- The memory with nothing listed is canonical. -/
theorem Memory.wf_nil : Memory.Wf [] := by simp [Memory.Wf, Memory.Rising]

end Sys2Proof.Machine
end

