-- ==== Sys2Proof/Laws/State.lean ====
section
/-!
SUPPORT. What each update of the state does to each field, one lemma per field per update.
-/

namespace Sys2Proof.Machine

variable (s : State)

/-! ## `writeReg` -/

@[simp] theorem State.writeReg_pc (r : Reg) (v : Word) : (s.writeReg r v).pc = s.pc := by
  unfold State.writeReg; split <;> rfl

@[simp] theorem State.writeReg_mem (r : Reg) (v : Word) : (s.writeReg r v).mem = s.mem := by
  unfold State.writeReg; split <;> rfl

@[simp] theorem State.writeReg_status (r : Reg) (v : Word) : (s.writeReg r v).status = s.status := by
  unfold State.writeReg; split <;> rfl

@[simp] theorem State.writeReg_report (r : Reg) (v : Word) : (s.writeReg r v).report = s.report := by
  unfold State.writeReg; split <;> rfl

@[simp] theorem State.writeReg_icount (r : Reg) (v : Word) : (s.writeReg r v).icount = s.icount := by
  unfold State.writeReg; split <;> rfl

@[simp] theorem State.writeReg_cfg (r : Reg) (v : Word) : (s.writeReg r v).cfg = s.cfg := by
  unfold State.writeReg; split <;> rfl

@[simp] theorem State.writeReg_zero (v : Word) : s.writeReg 0 v = s := rfl

/-! ## `retireTo` and `retireNext` -/

@[simp] theorem State.retireTo_regs (n : Word) : (s.retireTo n).regs = s.regs := rfl
@[simp] theorem State.retireTo_pc (n : Word) : (s.retireTo n).pc = n := rfl
@[simp] theorem State.retireTo_mem (n : Word) : (s.retireTo n).mem = s.mem := rfl
@[simp] theorem State.retireTo_status (n : Word) : (s.retireTo n).status = s.status := rfl
@[simp] theorem State.retireTo_report (n : Word) : (s.retireTo n).report = s.report := rfl
@[simp] theorem State.retireTo_icount (n : Word) : (s.retireTo n).icount = s.icount + 1 := rfl
@[simp] theorem State.retireTo_cfg (n : Word) : (s.retireTo n).cfg = s.cfg := rfl

@[simp] theorem State.retireNext_regs : s.retireNext.regs = s.regs := rfl
@[simp] theorem State.retireNext_pc : s.retireNext.pc = s.pc + 4#32 := rfl
@[simp] theorem State.retireNext_mem : s.retireNext.mem = s.mem := rfl
@[simp] theorem State.retireNext_status : s.retireNext.status = s.status := rfl
@[simp] theorem State.retireNext_report : s.retireNext.report = s.report := rfl
@[simp] theorem State.retireNext_icount : s.retireNext.icount = s.icount + 1 := rfl
@[simp] theorem State.retireNext_cfg : s.retireNext.cfg = s.cfg := rfl

/-! ## `writeRetire` -/

@[simp] theorem State.writeRetire_pc (r : Reg) (v : Word) : (s.writeRetire r v).pc = s.pc + 4#32 := by
  simp [State.writeRetire]

@[simp] theorem State.writeRetire_mem (r : Reg) (v : Word) : (s.writeRetire r v).mem = s.mem := by
  simp [State.writeRetire]

@[simp] theorem State.writeRetire_status (r : Reg) (v : Word) : (s.writeRetire r v).status = s.status := by
  simp [State.writeRetire]

@[simp] theorem State.writeRetire_report (r : Reg) (v : Word) : (s.writeRetire r v).report = s.report := by
  simp [State.writeRetire]

@[simp] theorem State.writeRetire_icount (r : Reg) (v : Word) : (s.writeRetire r v).icount = s.icount + 1 := by
  simp [State.writeRetire]

@[simp] theorem State.writeRetire_cfg (r : Reg) (v : Word) : (s.writeRetire r v).cfg = s.cfg := by
  simp [State.writeRetire]

/-! ## `endRun` and `halt` -/

@[simp] theorem State.endRun_regs (c : Condition) (w : Option Word) : (s.endRun c w).regs = s.regs := rfl
@[simp] theorem State.endRun_pc (c : Condition) (w : Option Word) : (s.endRun c w).pc = s.pc := rfl
@[simp] theorem State.endRun_mem (c : Condition) (w : Option Word) : (s.endRun c w).mem = s.mem := rfl
@[simp] theorem State.endRun_status (c : Condition) (w : Option Word) : (s.endRun c w).status = c.endStatus := rfl
@[simp] theorem State.endRun_report (c : Condition) (w : Option Word) : (s.endRun c w).report = some ⟨c, s.pc, w⟩ := rfl
@[simp] theorem State.endRun_icount (c : Condition) (w : Option Word) : (s.endRun c w).icount = s.icount := rfl
@[simp] theorem State.endRun_cfg (c : Condition) (w : Option Word) : (s.endRun c w).cfg = s.cfg := rfl

@[simp] theorem State.halt_regs : s.halt.regs = s.regs := rfl
@[simp] theorem State.halt_pc : s.halt.pc = s.pc := rfl
@[simp] theorem State.halt_mem : s.halt.mem = s.mem := rfl
@[simp] theorem State.halt_status : s.halt.status = .halted := rfl
@[simp] theorem State.halt_report : s.halt.report = s.report := rfl
@[simp] theorem State.halt_icount : s.halt.icount = s.icount + 1 := rfl
@[simp] theorem State.halt_cfg : s.halt.cfg = s.cfg := rfl

/-! ## Reading a register after an update that writes none -/

@[simp] theorem State.readReg_retireTo (n : Word) (r : Reg) : (s.retireTo n).readReg r = s.readReg r := rfl
@[simp] theorem State.readReg_retireNext (r : Reg) : s.retireNext.readReg r = s.readReg r := rfl
@[simp] theorem State.readReg_endRun (c : Condition) (w : Option Word) (r : Reg) : (s.endRun c w).readReg r = s.readReg r := rfl
@[simp] theorem State.readReg_halt (r : Reg) : s.halt.readReg r = s.readReg r := rfl

/-- A memory update writes no register. -/
@[simp] theorem State.readReg_withMem (m : Memory) (r : Reg) :
    ({ s with mem := m } : State).readReg r = s.readReg r := rfl

/-! ## The condition's status -/

/-- Only BudgetExceeded gives the status BudgetExceeded (R255). -/
theorem Condition.endStatus_eq (c : Condition) :
    c.endStatus = if c = .budgetExceeded then .budgetExceeded else .faulted := by
  cases c <;> rfl

/-- No condition leaves the machine running (R258). -/
@[simp] theorem Condition.endStatus_ne_running (c : Condition) : c.endStatus ≠ .running := by
  cases c <;> simp [Condition.endStatus]

/-- No condition halts the machine (R258). -/
@[simp] theorem Condition.endStatus_ne_halted (c : Condition) : c.endStatus ≠ .halted := by
  cases c <;> simp [Condition.endStatus]

end Sys2Proof.Machine
end

