-- ==== Sys2Proof/Laws/Access.lean ====
section
/-!
SUPPORT. What the access check, `MemRead` and `MemWrite` can do (spec/20_memory.md R52 to R54).
-/

namespace Sys2Proof.Machine

/-- The access passes exactly when the address is a multiple of 4 and its four bytes are in memory. -/
theorem State.checkAccess_eq_none {s : State} {a : Word} :
    s.checkAccess a = none ↔ a.toNat % 4 = 0 ∧ a.toNat + 4 ≤ s.cfg.memSize := by
  unfold State.checkAccess
  split
  · simp; omega
  · split <;> simp <;> omega

/-- The access check answers one of the two memory faults. -/
theorem State.checkAccess_eq_some {s : State} {a : Word} {c : Condition} :
    s.checkAccess a = some c ↔
      (a.toNat % 4 ≠ 0 ∧ c = .alignmentFault) ∨
      (a.toNat % 4 = 0 ∧ s.cfg.memSize < a.toNat + 4 ∧ c = .outOfBoundsFault) := by
  unfold State.checkAccess
  split
  · next h => simp [h, eq_comm]
  · next h =>
    split
    · next h2 => simp [h, h2, eq_comm]; omega
    · next h2 => simp [h, h2]

/-- The check depends on the memory size alone. -/
theorem State.checkAccess_congr {s t : State} (h : s.cfg.memSize = t.cfg.memSize) (a : Word) :
    s.checkAccess a = t.checkAccess a := by
  unfold State.checkAccess; rw [h]

/-- What `MemRead` can do: the word of memory, or the fault of the check. -/
theorem State.memRead_cases (s : State) (a : Word) :
    (s.checkAccess a = none ∧ s.memRead a = .ok (Memory.wordAt s.mem a.toNat)) ∨
    (∃ c, s.checkAccess a = some c ∧ s.memRead a = .error c) := by
  unfold State.memRead
  cases h : s.checkAccess a <;> simp

/-- What `MemWrite` can do: the stored word, or the fault of the check. -/
theorem State.memWrite_cases (s : State) (a v : Word) :
    (s.checkAccess a = none ∧
      s.memWrite a v = .ok { s with mem := Memory.setWord s.mem a.toNat v }) ∨
    (∃ c, s.checkAccess a = some c ∧ s.memWrite a v = .error c) := by
  unfold State.memWrite
  cases h : s.checkAccess a <;> simp

/-- A memory fault is never BudgetExceeded. -/
theorem State.checkAccess_ne_budget {s : State} {a : Word} {c : Condition}
    (h : s.checkAccess a = some c) : c ≠ .budgetExceeded := by
  rcases State.checkAccess_eq_some.1 h with ⟨_, rfl⟩ | ⟨_, _, rfl⟩ <;> simp

end Sys2Proof.Machine
end

