-- ==== Sys2Proof/Laws/Registers.lean ====
section
/-!
SUPPORT. The register file's laws (spec/10_state.md R22, R23).
-/

namespace Sys2Proof.Machine

/-- `x[0]` reads 0 in every state. -/
@[simp] theorem State.readReg_zero (s : State) : s.readReg 0 = 0#32 := rfl

/-- A register other than `x[0]` reads its slot. -/
theorem State.readReg_of_ne (s : State) {r : Reg} (h : r ≠ 0) : s.readReg r = s.regs[r] := by
  simp [State.readReg, h]

/-- What a register reads after a register write. -/
theorem State.readReg_writeReg (s : State) (rd r : Reg) (v : Word) :
    (s.writeReg rd v).readReg r = if r = rd ∧ r ≠ 0 then v else s.readReg r := by
  by_cases hr : r = 0
  · simp [hr]
  · by_cases hd : rd = 0
    · subst hd; simp [hr]
    · rw [State.readReg_of_ne _ hr, State.readReg_of_ne _ hr]
      simp only [State.writeReg, hd, if_false, ne_eq, hr, not_false_eq_true, and_true]
      by_cases h : r = rd
      · simp [h]
      · have : (rd : Nat) ≠ (r : Nat) := fun e => h (Fin.ext e.symm)
        simp [h, this]

/-- What a register reads after an instruction wrote a register and retired. -/
theorem State.readReg_writeRetire (s : State) (rd r : Reg) (v : Word) :
    (s.writeRetire rd v).readReg r = if r = rd ∧ r ≠ 0 then v else s.readReg r := by
  simp [State.writeRetire, State.readReg_writeReg]

/-- Slot 0 of the register array is never written. -/
@[simp] theorem State.writeReg_slot_zero (s : State) (rd : Reg) (v : Word) :
    (s.writeReg rd v).regs[(0 : Reg)] = s.regs[(0 : Reg)] := by
  unfold State.writeReg
  split
  · rfl
  · next h =>
    have : (rd : Nat) ≠ 0 := fun e => h (Fin.ext e)
    simp [this]

end Sys2Proof.Machine
end

