-- ==== Sys2Proof/Laws/Exec.lean ====
section
/-!
SUPPORT. Everything the execute stage can do (spec/48_execution_loop.md R230 lines 4 and 5): it
answers a next state for every instruction, of one of five shapes.
-/

namespace Sys2Proof.Machine

/-- The shapes of an executed instruction's next state. -/
inductive Executed (i : Instr) (s : State) : State → Prop where
  /-- it wrote its register and retired -/
  | wrote (rd : Reg) (v npc : Word) (hd : dest i = some rd) : Executed i s ((s.writeReg rd v).retireTo npc)
  /-- it wrote nothing and retired: a branch -/
  | moved (npc : Word) (hd : dest i = none) (hs : isStore i = false) : Executed i s (s.retireTo npc)
  /-- it stored a word and retired: SW -/
  | stored (rs1 rs2 : Reg) (imm : BitVec 12) (hi : i = .sw rs1 rs2 imm)
      (ha : s.checkAccess (s.effAddr rs1 imm) = none) :
      Executed i s (State.retireNext
        { s with mem := Memory.setWord s.mem (s.effAddr rs1 imm).toNat (s.readReg rs2) })
  /-- its data access faulted: LW or SW -/
  | faulted (c : Condition) (rd rs1 rs2 : Reg) (imm : BitVec 12)
      (hi : i = .lw rd rs1 imm ∨ i = .sw rs1 rs2 imm)
      (ha : s.checkAccess (s.effAddr rs1 imm) = some c) : Executed i s (s.endRun c (some (encode i)))
  /-- it halted the machine: EBREAK -/
  | halted (hi : i = .ebreak) : Executed i s s.halt

/-- A next state that writes a register and goes to the next instruction. -/
theorem Executed.ofWriteRetire {i : Instr} {s : State} (rd : Reg) (v : Word)
    (hd : dest i = some rd) : Executed i s (s.writeRetire rd v) := by
  have h := Executed.wrote (s := s) rd v ((s.writeReg rd v).pc + 4#32) hd
  exact h

/-- What a branch does. -/
theorem Executed.ofBranch {i : Instr} {s : State} (taken : Bool) (off : BitVec 13)
    (hd : dest i = none) (hs : isStore i = false) : Executed i s (s.branch taken off) := by
  cases taken
  · exact Executed.moved _ hd hs
  · exact Executed.moved _ hd hs

/-- The execute stage always answers a next state, of one of the five shapes. -/
theorem exec_cases (i : Instr) (s : State) : ∃ t, exec i s = .next t ∧ Executed i s t := by
  cases i
  case lw rd rs1 imm =>
    rcases State.memRead_cases s (s.effAddr rs1 imm) with ⟨_, h⟩ | ⟨c, hc, h⟩
    · exact ⟨s.writeRetire rd (Memory.wordAt s.mem (s.effAddr rs1 imm).toNat),
        by simp only [exec, execLw, h], Executed.ofWriteRetire rd _ rfl⟩
    · exact ⟨_, by simp only [exec, execLw, h], Executed.faulted c rd rs1 0 imm (.inl rfl) hc⟩
  case sw rs1 rs2 imm =>
    rcases State.memWrite_cases s (s.effAddr rs1 imm) (s.readReg rs2) with ⟨ha, h⟩ | ⟨c, hc, h⟩
    · exact ⟨_, by simp only [exec, execSw, h], Executed.stored rs1 rs2 imm rfl ha⟩
    · exact ⟨_, by simp only [exec, execSw, h], Executed.faulted c 0 rs1 rs2 imm (.inr rfl) hc⟩
  case ebreak => exact ⟨_, rfl, Executed.halted rfl⟩
  case jal => exact ⟨_, rfl, Executed.wrote _ _ _ rfl⟩
  case jalr => exact ⟨_, rfl, Executed.wrote _ _ _ rfl⟩
  case beq => exact ⟨_, rfl, Executed.ofBranch _ _ rfl rfl⟩
  case bne => exact ⟨_, rfl, Executed.ofBranch _ _ rfl rfl⟩
  case blt => exact ⟨_, rfl, Executed.ofBranch _ _ rfl rfl⟩
  case bge => exact ⟨_, rfl, Executed.ofBranch _ _ rfl rfl⟩
  case bltu => exact ⟨_, rfl, Executed.ofBranch _ _ rfl rfl⟩
  case bgeu => exact ⟨_, rfl, Executed.ofBranch _ _ rfl rfl⟩
  all_goals exact ⟨_, rfl, Executed.ofWriteRetire _ _ rfl⟩

/-- The shape of a next state the execute stage answered. -/
theorem exec_inv {i : Instr} {s t : State} (h : exec i s = .next t) : Executed i s t := by
  obtain ⟨u, hu, hx⟩ := exec_cases i s
  rw [hu] at h
  cases h
  exact hx

/-- Writing a register and retiring, in the claims' vocabulary. -/
theorem RetiresWriting.ofWriteRetireTo (s : State) (rd : Reg) (v npc : Word) :
    RetiresWriting s ((s.writeReg rd v).retireTo npc) rd v npc where
  reg r := by simp [State.readReg_writeReg]
  pc := rfl
  icount := by simp
  mem a := by simp
  status := by simp
  report := by simp
  cfg := by simp

/-- Writing a register and going to the next instruction, in the claims' vocabulary. -/
theorem RetiresWriting.ofWriteRetire (s : State) (rd : Reg) (v : Word) :
    RetiresWriting s (s.writeRetire rd v) rd v (s.pc + 4#32) where
  reg r := by simp [State.readReg_writeRetire]
  pc := by simp
  icount := by simp
  mem a := by simp
  status := by simp
  report := by simp
  cfg := by simp

/-- Retiring without a write, in the claims' vocabulary. -/
theorem RetiresTo.ofRetireTo (s : State) (npc : Word) : RetiresTo s (s.retireTo npc) npc where
  reg _ := rfl
  pc := rfl
  icount := rfl
  mem _ := rfl
  status := rfl
  report := rfl
  cfg := rfl

/-- Storing a word and retiring, in the claims' vocabulary. -/
theorem RetiresStoring.ofSetWord (s : State) (ea v : Word) :
    RetiresStoring s (State.retireNext { s with mem := Memory.setWord s.mem ea.toNat v }) ea v where
  byte0 := by simp [Memory.byteAt_setWord, byteOf]
  byte1 := by simp [Memory.byteAt_setWord, byteOf]
  byte2 := by simp [Memory.byteAt_setWord, byteOf]
  byte3 := by simp [Memory.byteAt_setWord, byteOf]
  mem a h := by simp [Memory.byteAt_setWord, h]
  reg _ := rfl
  pc := rfl
  icount := rfl
  status := rfl
  report := rfl
  cfg := rfl

/-- Taking a condition, in the claims' vocabulary. -/
theorem StopsWith.ofEndRun (s : State) (c : Condition) (w : Option Word) :
    StopsWith s (s.endRun c w) c w where
  status := by simp [Condition.endStatus_eq]
  report := rfl
  reg _ := rfl
  mem _ := rfl
  pc := rfl
  icount := rfl
  cfg := rfl

end Sys2Proof.Machine
end

