-- ==== Sys2Proof/Laws/Alu.lean ====
section
/-!
SUPPORT. The results of the arithmetic, the operand forms and the targets, each in the spec's own
arithmetic on naturals and integers (spec/00_scope.md R10, R11).
-/

namespace Sys2Proof.Machine

/-- Little-endian bytes as a number (R53). -/
theorem wordOfBytes_eq_ofNat (b0 b1 b2 b3 : Byte) :
    wordOfBytes b0 b1 b2 b3 = BitVec.ofNat 32
      (b0.toNat + 2 ^ 8 * b1.toNat + 2 ^ 16 * b2.toNat + 2 ^ 24 * b3.toNat) := by
  apply BitVec.eq_of_toNat_eq
  have h0 := b0.isLt
  have h1 := b1.isLt
  have h2 := b2.isLt
  have h3 := b3.isLt
  simp only [wordOfBytes, BitVec.toNat_append, BitVec.toNat_ofNat]
  rw [← Nat.shiftLeft_add_eq_or_of_lt h2, ← Nat.shiftLeft_add_eq_or_of_lt h1,
    ← Nat.shiftLeft_add_eq_or_of_lt h0]
  simp only [Nat.shiftLeft_eq]
  omega

/-- The shift amount is the register modulo 32 (R123). -/
theorem shiftAmount_eq (v : Word) : shiftAmount v = v.toNat % 32 := by
  simp [shiftAmount, BitVec.extractLsb'_toNat]

/-- A left shift multiplies (R11). -/
theorem aluSll_eq (a : Word) (k : Nat) : aluSll a k = BitVec.ofNat 32 (a.toNat * 2 ^ k) := by
  apply BitVec.eq_of_toNat_eq
  simp [aluSll, Nat.shiftLeft_eq]

/-- A logical right shift divides the unsigned reading (R11). -/
theorem aluSrl_eq (a : Word) (k : Nat) : aluSrl a k = BitVec.ofNat 32 (a.toNat / 2 ^ k) := by
  apply BitVec.eq_of_toNat_eq
  simp only [aluSrl, BitVec.toNat_ushiftRight, Nat.shiftRight_eq_div_pow, BitVec.toNat_ofNat]
  exact (Nat.mod_eq_of_lt (Nat.lt_of_le_of_lt (Nat.div_le_self _ _) a.isLt)).symm

/-- An arithmetic right shift divides the signed reading, downward (R11). -/
theorem aluSra_eq (a : Word) (k : Nat) : aluSra a k = BitVec.ofInt 32 (a.toInt / 2 ^ k) := by
  rw [aluSra, BitVec.sshiftRight, Int.shiftRight_eq_div_pow]
  norm_cast

/-- Set less than, signed (R124). -/
theorem aluSlt_eq (a b : Word) : aluSlt a b = if a.toInt < b.toInt then 1#32 else 0#32 := by
  simp [aluSlt, boolWord, lessSigned, BitVec.slt]

/-- Set less than, unsigned (R125). -/
theorem aluSltu_eq (a b : Word) : aluSltu a b = if a.toNat < b.toNat then 1#32 else 0#32 := by
  simp [aluSltu, boolWord, lessUnsigned, BitVec.ult]

/-- The sign-extended immediate keeps its signed value (R88). -/
theorem imm12_toInt (imm : BitVec 12) : (imm12 imm).toInt = imm.toInt :=
  BitVec.toInt_signExtend_of_le (by decide)

/-- The sign-extended immediate is the word of its signed value (R10, R88). -/
theorem imm12_eq_ofInt (imm : BitVec 12) : imm12 imm = BitVec.ofInt 32 imm.toInt := rfl

/-- Bits 31 to 12 of a sign-extended immediate repeat its bit 11 (R88). -/
theorem imm12_getLsbD (imm : BitVec 12) {i : Nat} (hi : i < 32) :
    (imm12 imm).getLsbD i = imm.getLsbD (min i 11) := by
  simp only [imm12, BitVec.getLsbD_signExtend, hi, decide_true, Bool.true_and]
  split
  · next h => rw [show min i 11 = i by omega]
  · next h => rw [show min i 11 = 11 by omega]; simp [BitVec.msb_eq_getLsbD_last]

/-- The effective address is the sum modulo 2^32 (R51). -/
theorem State.effAddr_eq (s : State) (rs1 : Reg) (imm : BitVec 12) :
    s.effAddr rs1 imm = BitVec.ofInt 32 (((s.readReg rs1).toNat : Int) + imm.toInt) := by
  rw [BitVec.ofInt_add, BitVec.ofInt_natCast]
  simp [State.effAddr, imm12_eq_ofInt]

/-- A branch retires, to its target if taken and to the next instruction if not (R171). -/
theorem RetiresTo.ofBranch (s : State) (taken : Bool) (off : BitVec 13) :
    RetiresTo s (s.branch taken off) (if taken then s.branchTarget off else s.pc + 4#32) := by
  cases taken
  · exact RetiresTo.ofRetireTo s _
  · exact RetiresTo.ofRetireTo s _

end Sys2Proof.Machine
end

