-- ==== Sys2Proof/Laws/Encoding.lean ====
section
/-!
SUPPORT. Small facts of the encoder and the fields: a register field and its index are the same
thing, and every format carries its fixed bits (spec/30_encoding.md R82 to R87, R96).
-/

namespace Sys2Proof

/-- The index a register field names, put back in the field (R21). -/
@[simp] theorem regBits_regOf (b : BitVec 5) : regBits (regOf b) = b := by
  apply BitVec.eq_of_toNat_eq
  simp [regBits, regOf]

/-- The field of a register names that register (R21). -/
@[simp] theorem regOf_regBits (r : Reg) : regOf (regBits r) = r := by
  apply Fin.ext
  show (BitVec.ofNat 5 r.val).toNat = r.val
  rw [BitVec.toNat_ofNat]
  exact Nat.mod_eq_of_lt r.isLt

theorem and_ones3 (x : BitVec 3) : x &&& 0x7#3 = x := by revert x; decide

theorem and_ones7 (x : BitVec 7) : x &&& 0x7F#7 = x := by revert x; decide

/-- The fixed bits of the R-type format (R82). -/
theorem encodeR_fixed (f7 : BitVec 7) (rs2 rs1 : Reg) (f3 : BitVec 3) (rd : Reg) (op : BitVec 7) :
    encodeR f7 rs2 rs1 f3 rd op &&& 0xFE00707F#32 = f7 ++ 0#5 ++ 0#5 ++ f3 ++ 0#5 ++ op := by
  show (f7 ++ regBits rs2 ++ regBits rs1 ++ f3 ++ regBits rd ++ op : BitVec (7 + 5 + 5 + 3 + 5 + 7)) &&&
    (0x7F#7 ++ 0#5 ++ 0#5 ++ 0x7#3 ++ 0#5 ++ 0x7F#7 : BitVec (7 + 5 + 5 + 3 + 5 + 7)) = _
  rw [BitVec.and_append, BitVec.and_append, BitVec.and_append, BitVec.and_append, BitVec.and_append,
    and_ones7, and_ones7, and_ones3]
  simp only [BitVec.and_zero]

/-- The fixed bits of the shift-immediates (R83). -/
theorem encodeShift_fixed (f7 : BitVec 7) (sh : BitVec 5) (rs1 : Reg) (f3 : BitVec 3) (rd : Reg)
    (op : BitVec 7) :
    encodeShift f7 sh rs1 f3 rd op &&& 0xFE00707F#32 = f7 ++ 0#5 ++ 0#5 ++ f3 ++ 0#5 ++ op := by
  show (f7 ++ sh ++ regBits rs1 ++ f3 ++ regBits rd ++ op : BitVec (7 + 5 + 5 + 3 + 5 + 7)) &&&
    (0x7F#7 ++ 0#5 ++ 0#5 ++ 0x7#3 ++ 0#5 ++ 0x7F#7 : BitVec (7 + 5 + 5 + 3 + 5 + 7)) = _
  rw [BitVec.and_append, BitVec.and_append, BitVec.and_append, BitVec.and_append, BitVec.and_append,
    and_ones7, and_ones7, and_ones3]
  simp only [BitVec.and_zero]

/-- The fixed bits of the I-type format (R83). -/
theorem encodeI_fixed (imm : BitVec 12) (rs1 : Reg) (f3 : BitVec 3) (rd : Reg) (op : BitVec 7) :
    encodeI imm rs1 f3 rd op &&& 0x0000707F#32 = 0#12 ++ 0#5 ++ f3 ++ 0#5 ++ op := by
  show (imm ++ regBits rs1 ++ f3 ++ regBits rd ++ op : BitVec (12 + 5 + 3 + 5 + 7)) &&&
    (0#12 ++ 0#5 ++ 0x7#3 ++ 0#5 ++ 0x7F#7 : BitVec (12 + 5 + 3 + 5 + 7)) = _
  rw [BitVec.and_append, BitVec.and_append, BitVec.and_append, BitVec.and_append, and_ones7,
    and_ones3]
  simp only [BitVec.and_zero]

/-- The fixed bits of the S-type format (R84). -/
theorem encodeS_fixed (imm : BitVec 12) (rs2 rs1 : Reg) (f3 : BitVec 3) (op : BitVec 7) :
    encodeS imm rs2 rs1 f3 op &&& 0x0000707F#32 = 0#7 ++ 0#5 ++ 0#5 ++ f3 ++ 0#5 ++ op := by
  show (imm.extractLsb' 5 7 ++ regBits rs2 ++ regBits rs1 ++ f3 ++ imm.extractLsb' 0 5 ++ op :
      BitVec (7 + 5 + 5 + 3 + 5 + 7)) &&&
    (0#7 ++ 0#5 ++ 0#5 ++ 0x7#3 ++ 0#5 ++ 0x7F#7 : BitVec (7 + 5 + 5 + 3 + 5 + 7)) = _
  rw [BitVec.and_append, BitVec.and_append, BitVec.and_append, BitVec.and_append, BitVec.and_append,
    and_ones7, and_ones3]
  simp only [BitVec.and_zero]

/-- The fixed bits of the B-type format (R85). -/
theorem encodeB_fixed (off : BitVec 13) (rs2 rs1 : Reg) (f3 : BitVec 3) (op : BitVec 7) :
    encodeB off rs2 rs1 f3 op &&& 0x0000707F#32 =
      0#1 ++ 0#6 ++ 0#5 ++ 0#5 ++ f3 ++ 0#4 ++ 0#1 ++ op := by
  show (off.extractLsb' 12 1 ++ off.extractLsb' 5 6 ++ regBits rs2 ++ regBits rs1 ++ f3 ++
      off.extractLsb' 1 4 ++ off.extractLsb' 11 1 ++ op : BitVec (1 + 6 + 5 + 5 + 3 + 4 + 1 + 7)) &&&
    (0#1 ++ 0#6 ++ 0#5 ++ 0#5 ++ 0x7#3 ++ 0#4 ++ 0#1 ++ 0x7F#7 :
      BitVec (1 + 6 + 5 + 5 + 3 + 4 + 1 + 7)) = _
  rw [BitVec.and_append, BitVec.and_append, BitVec.and_append, BitVec.and_append, BitVec.and_append,
    BitVec.and_append, BitVec.and_append, and_ones7, and_ones3]
  simp only [BitVec.and_zero]

/-- The fixed bits of the U-type format (R86). -/
theorem encodeU_fixed (imm : BitVec 20) (rd : Reg) (op : BitVec 7) :
    encodeU imm rd op &&& 0x0000007F#32 = 0#20 ++ 0#5 ++ op := by
  show (imm ++ regBits rd ++ op : BitVec (20 + 5 + 7)) &&&
    (0#20 ++ 0#5 ++ 0x7F#7 : BitVec (20 + 5 + 7)) = _
  rw [BitVec.and_append, BitVec.and_append, and_ones7]
  simp only [BitVec.and_zero]

/-- The fixed bits of the J-type format (R87). -/
theorem encodeJ_fixed (off : BitVec 21) (rd : Reg) (op : BitVec 7) :
    encodeJ off rd op &&& 0x0000007F#32 = 0#1 ++ 0#10 ++ 0#1 ++ 0#8 ++ 0#5 ++ op := by
  show (off.extractLsb' 20 1 ++ off.extractLsb' 1 10 ++ off.extractLsb' 11 1 ++
      off.extractLsb' 12 8 ++ regBits rd ++ op : BitVec (1 + 10 + 1 + 8 + 5 + 7)) &&&
    (0#1 ++ 0#10 ++ 0#1 ++ 0#8 ++ 0#5 ++ 0x7F#7 : BitVec (1 + 10 + 1 + 8 + 5 + 7)) = _
  rw [BitVec.and_append, BitVec.and_append, BitVec.and_append, BitVec.and_append, BitVec.and_append,
    and_ones7]
  simp only [BitVec.and_zero]

/-! ## From a row's mask to the fields (R96) -/

/-- The opcode of a word from the 7-bit mask. -/
theorem opcodeOf_of_mask {w p : Word} (h : w &&& 0x7F#32 = p) :
    opcodeOf w = p.extractLsb' 0 7 := by
  subst h
  apply BitVec.eq_of_getLsbD_eq
  intro i hi
  simp only [opcodeOf, BitVec.getLsbD_extractLsb', BitVec.getLsbD_and]
  interval_cases i <;> simp

/-- The opcode and `funct3` of a word from the 10-bit mask. -/
theorem opcode_funct3_of_mask {w p : Word} (h : w &&& 0x707F#32 = p) :
    opcodeOf w = p.extractLsb' 0 7 ∧ funct3Of w = p.extractLsb' 12 3 := by
  subst h
  constructor <;> apply BitVec.eq_of_getLsbD_eq <;> intro i hi <;>
    simp only [opcodeOf, funct3Of, BitVec.getLsbD_extractLsb', BitVec.getLsbD_and] <;>
    interval_cases i <;> simp

/-- The opcode, `funct3` and `funct7` of a word from the 17-bit mask. -/
theorem opcode_functs_of_mask {w p : Word} (h : w &&& 0xFE00707F#32 = p) :
    opcodeOf w = p.extractLsb' 0 7 ∧ funct3Of w = p.extractLsb' 12 3 ∧
      funct7Of w = p.extractLsb' 25 7 := by
  subst h
  refine ⟨?_, ?_, ?_⟩ <;> apply BitVec.eq_of_getLsbD_eq <;> intro i hi <;>
    simp only [opcodeOf, funct3Of, funct7Of, BitVec.getLsbD_extractLsb', BitVec.getLsbD_and] <;>
    interval_cases i <;> simp

end Sys2Proof
end

