-- ==== Sys2Proof/Laws/PerInstr.lean ====
section
/-!
SUPPORT. The per-instruction family FixedBits: the word of an instruction carries the fixed bits of a
row of spec/30_encoding.md R96 that builds an instruction of the same class. One lemma per constructor.
-/

namespace Sys2Proof.Laws.FixedBits

/-- The word of `i` matches the mask and pattern of a row of the table, and that row needs
`M_ENABLED` exactly when `i` is a multiply/divide operation (R96, R99). -/
def Statement (i : Instr) : Prop :=
  ∃ row ∈ Machine.encodingTable, encode i &&& row.mask = row.pattern ∧ row.mulDiv = i.isMulDiv

/-- A row named by its place in the table settles the statement. -/
theorem Statement.ofRow {i : Instr} (n : Nat) (row : Machine.EncodingRow)
    (hn : Machine.encodingTable[n]? = some row)
    (hb : encode i &&& row.mask = row.pattern) (hm : row.mulDiv = i.isMulDiv) : Statement i :=
  ⟨row, List.mem_of_getElem? hn, hb, hm⟩

theorem add (rd rs1 rs2 : Reg) : Statement (.add rd rs1 rs2) :=
  .ofRow 0 _ rfl (encodeR_fixed ..) rfl

theorem sub (rd rs1 rs2 : Reg) : Statement (.sub rd rs1 rs2) :=
  .ofRow 1 _ rfl (encodeR_fixed ..) rfl

theorem sll (rd rs1 rs2 : Reg) : Statement (.sll rd rs1 rs2) :=
  .ofRow 2 _ rfl (encodeR_fixed ..) rfl

theorem slt (rd rs1 rs2 : Reg) : Statement (.slt rd rs1 rs2) :=
  .ofRow 3 _ rfl (encodeR_fixed ..) rfl

theorem sltu (rd rs1 rs2 : Reg) : Statement (.sltu rd rs1 rs2) :=
  .ofRow 4 _ rfl (encodeR_fixed ..) rfl

theorem xor (rd rs1 rs2 : Reg) : Statement (.xor rd rs1 rs2) :=
  .ofRow 5 _ rfl (encodeR_fixed ..) rfl

theorem srl (rd rs1 rs2 : Reg) : Statement (.srl rd rs1 rs2) :=
  .ofRow 6 _ rfl (encodeR_fixed ..) rfl

theorem sra (rd rs1 rs2 : Reg) : Statement (.sra rd rs1 rs2) :=
  .ofRow 7 _ rfl (encodeR_fixed ..) rfl

theorem or (rd rs1 rs2 : Reg) : Statement (.or rd rs1 rs2) :=
  .ofRow 8 _ rfl (encodeR_fixed ..) rfl

theorem and (rd rs1 rs2 : Reg) : Statement (.and rd rs1 rs2) :=
  .ofRow 9 _ rfl (encodeR_fixed ..) rfl

theorem addi (rd rs1 : Reg) (imm : BitVec 12) : Statement (.addi rd rs1 imm) :=
  .ofRow 10 _ rfl (encodeI_fixed ..) rfl

theorem slti (rd rs1 : Reg) (imm : BitVec 12) : Statement (.slti rd rs1 imm) :=
  .ofRow 11 _ rfl (encodeI_fixed ..) rfl

theorem sltiu (rd rs1 : Reg) (imm : BitVec 12) : Statement (.sltiu rd rs1 imm) :=
  .ofRow 12 _ rfl (encodeI_fixed ..) rfl

theorem xori (rd rs1 : Reg) (imm : BitVec 12) : Statement (.xori rd rs1 imm) :=
  .ofRow 13 _ rfl (encodeI_fixed ..) rfl

theorem ori (rd rs1 : Reg) (imm : BitVec 12) : Statement (.ori rd rs1 imm) :=
  .ofRow 14 _ rfl (encodeI_fixed ..) rfl

theorem andi (rd rs1 : Reg) (imm : BitVec 12) : Statement (.andi rd rs1 imm) :=
  .ofRow 15 _ rfl (encodeI_fixed ..) rfl

theorem slli (rd rs1 : Reg) (shamt : BitVec 5) : Statement (.slli rd rs1 shamt) :=
  .ofRow 16 _ rfl (encodeShift_fixed ..) rfl

theorem srli (rd rs1 : Reg) (shamt : BitVec 5) : Statement (.srli rd rs1 shamt) :=
  .ofRow 17 _ rfl (encodeShift_fixed ..) rfl

theorem srai (rd rs1 : Reg) (shamt : BitVec 5) : Statement (.srai rd rs1 shamt) :=
  .ofRow 18 _ rfl (encodeShift_fixed ..) rfl

theorem lw (rd rs1 : Reg) (imm : BitVec 12) : Statement (.lw rd rs1 imm) :=
  .ofRow 19 _ rfl (encodeI_fixed ..) rfl

theorem sw (rs1 rs2 : Reg) (imm : BitVec 12) : Statement (.sw rs1 rs2 imm) :=
  .ofRow 20 _ rfl (encodeS_fixed ..) rfl

theorem beq (rs1 rs2 : Reg) (off : BitVec 13) : Statement (.beq rs1 rs2 off) :=
  .ofRow 21 _ rfl (encodeB_fixed ..) rfl

theorem bne (rs1 rs2 : Reg) (off : BitVec 13) : Statement (.bne rs1 rs2 off) :=
  .ofRow 22 _ rfl (encodeB_fixed ..) rfl

theorem blt (rs1 rs2 : Reg) (off : BitVec 13) : Statement (.blt rs1 rs2 off) :=
  .ofRow 23 _ rfl (encodeB_fixed ..) rfl

theorem bge (rs1 rs2 : Reg) (off : BitVec 13) : Statement (.bge rs1 rs2 off) :=
  .ofRow 24 _ rfl (encodeB_fixed ..) rfl

theorem bltu (rs1 rs2 : Reg) (off : BitVec 13) : Statement (.bltu rs1 rs2 off) :=
  .ofRow 25 _ rfl (encodeB_fixed ..) rfl

theorem bgeu (rs1 rs2 : Reg) (off : BitVec 13) : Statement (.bgeu rs1 rs2 off) :=
  .ofRow 26 _ rfl (encodeB_fixed ..) rfl

theorem jal (rd : Reg) (off : BitVec 21) : Statement (.jal rd off) :=
  .ofRow 27 _ rfl (encodeJ_fixed ..) rfl

theorem jalr (rd rs1 : Reg) (imm : BitVec 12) : Statement (.jalr rd rs1 imm) :=
  .ofRow 28 _ rfl (encodeI_fixed ..) rfl

theorem lui (rd : Reg) (imm : BitVec 20) : Statement (.lui rd imm) :=
  .ofRow 29 _ rfl (encodeU_fixed ..) rfl

theorem auipc (rd : Reg) (imm : BitVec 20) : Statement (.auipc rd imm) :=
  .ofRow 30 _ rfl (encodeU_fixed ..) rfl

theorem mul (rd rs1 rs2 : Reg) : Statement (.mul rd rs1 rs2) :=
  .ofRow 31 _ rfl (encodeR_fixed ..) rfl

theorem mulh (rd rs1 rs2 : Reg) : Statement (.mulh rd rs1 rs2) :=
  .ofRow 32 _ rfl (encodeR_fixed ..) rfl

theorem mulhsu (rd rs1 rs2 : Reg) : Statement (.mulhsu rd rs1 rs2) :=
  .ofRow 33 _ rfl (encodeR_fixed ..) rfl

theorem mulhu (rd rs1 rs2 : Reg) : Statement (.mulhu rd rs1 rs2) :=
  .ofRow 34 _ rfl (encodeR_fixed ..) rfl

theorem div (rd rs1 rs2 : Reg) : Statement (.div rd rs1 rs2) :=
  .ofRow 35 _ rfl (encodeR_fixed ..) rfl

theorem divu (rd rs1 rs2 : Reg) : Statement (.divu rd rs1 rs2) :=
  .ofRow 36 _ rfl (encodeR_fixed ..) rfl

theorem rem (rd rs1 rs2 : Reg) : Statement (.rem rd rs1 rs2) :=
  .ofRow 37 _ rfl (encodeR_fixed ..) rfl

theorem remu (rd rs1 rs2 : Reg) : Statement (.remu rd rs1 rs2) :=
  .ofRow 38 _ rfl (encodeR_fixed ..) rfl

theorem ebreak : Statement .ebreak :=
  .ofRow 39 _ rfl (by decide) rfl

end Sys2Proof.Laws.FixedBits
end

