-- ==== Sys2Proof/Laws/Pseudo.lean ====
section
/-!
SUPPORT. Small facts of the pseudo-instructions' expansions (spec/30_encoding.md R105).
-/

namespace Sys2Proof.Machine

@[simp] theorem execAll_nil (s : State) : execAll [] s = .next s := rfl

/-- An instruction that answers a next state hands it to the rest of the sequence. -/
theorem execAll_cons_next {i : Instr} {is : List Instr} {s t : State} (h : exec i s = .next t) :
    execAll (i :: is) s = execAll is t := by
  simp only [execAll, h]

/-- `hi` placed and `lo` sign-extended add up to the constant (R105). -/
theorem immU_highPart_add (c : Word) : immU (highPart c) + imm12 (lowPart c) = c := by
  have hlow : (c - imm12 (lowPart c)).extractLsb' 0 12 = 0#12 := by
    have h : (imm12 (lowPart c)).toNat % 2 ^ 12 = c.toNat % 2 ^ 12 := by
      have h1 : (imm12 (lowPart c)).extractLsb' 0 12 = c.extractLsb' 0 12 := by
        apply BitVec.eq_of_getLsbD_eq
        intro i hi
        simp only [imm12, lowPart, BitVec.getLsbD_extractLsb', BitVec.getLsbD_signExtend]
        simp [hi, show i < 32 by omega]
      simpa [BitVec.extractLsb'_toNat] using congrArg BitVec.toNat h1
    apply BitVec.eq_of_toNat_eq
    have hc := c.isLt
    have hi := (imm12 (lowPart c)).isLt
    simp only [BitVec.extractLsb'_toNat, BitVec.toNat_sub, BitVec.toNat_ofNat, Nat.shiftRight_zero]
    omega
  have hsub : immU (highPart c) = c - imm12 (lowPart c) := by
    rw [immU, highPart, ← hlow, BitVec.extractLsb'_append_extractLsb'_eq_extractLsb' (by rfl)]
    simp
  rw [hsub, BitVec.sub_add_cancel]

/-- A constant in the range of ADDI's immediate is its sign-extended low part (R105). -/
theorem imm12_lowPart {c : Word} (h1 : -2048 ≤ c.toInt) (h2 : c.toInt ≤ 2047) :
    imm12 (lowPart c) = c := by
  apply BitVec.eq_of_toInt_eq
  have hc := c.isLt
  rw [imm12, BitVec.toInt_signExtend_of_le (by decide)]
  rw [BitVec.toInt_eq_toNat_cond] at h1 h2 ⊢
  rw [BitVec.toInt_eq_toNat_cond]
  simp only [lowPart, BitVec.extractLsb'_toNat, Nat.shiftRight_zero]
  split at h1 <;> split <;> omega

end Sys2Proof.Machine
end

