-- ==== Sys2Proof/Laws/Step.lean ====
section
/-!
SUPPORT. What a step can do (spec/48_execution_loop.md R230), said once.
-/

namespace Sys2Proof.Machine

/-- What the fetch finds: a condition of the budget, of the pc or of the word, or the instruction the
word at the pc decodes to. -/
theorem State.fetchNext_cases (s : State) :
    (s.cfg.budget ≤ s.icount ∧ s.fetchNext = .stops .budgetExceeded none) ∨
    (s.icount < s.cfg.budget ∧ ∃ c, s.checkAccess s.pc = some c ∧ s.fetchNext = .stops c none) ∨
    (s.icount < s.cfg.budget ∧ s.checkAccess s.pc = none ∧
      (∃ r, decode s.cfg.mEnabled (Memory.wordAt s.mem s.pc.toNat) = .decodeFault r) ∧
      s.fetchNext = .stops .decodeFault (some (Memory.wordAt s.mem s.pc.toNat))) ∨
    (s.icount < s.cfg.budget ∧ s.checkAccess s.pc = none ∧
      ∃ i, decode s.cfg.mEnabled (Memory.wordAt s.mem s.pc.toNat) = .instr i ∧
        s.fetchNext = .instr i) := by
  unfold State.fetchNext
  by_cases hb : s.cfg.budget ≤ s.icount
  · exact .inl ⟨hb, by simp [hb]⟩
  · have hlt : s.icount < s.cfg.budget := by omega
    rcases State.memRead_cases s s.pc with ⟨ha, h⟩ | ⟨c, hc, h⟩
    · cases hd : decode s.cfg.mEnabled (Memory.wordAt s.mem s.pc.toNat) with
      | instr i => exact .inr (.inr (.inr ⟨hlt, ha, i, rfl, by simp [hb, h, State.decodeFetched, hd]⟩))
      | decodeFault r =>
        exact .inr (.inr (.inl ⟨hlt, ha, ⟨r, rfl⟩, by simp [hb, h, State.decodeFetched, hd]⟩))
    · exact .inr (.inl ⟨hlt, c, hc, by simp [hb, h]⟩)

/-- A step from a running machine ends the run by a condition of the fetch or executes. -/
theorem step_running {s : State} (h : s.status = .running) :
    step s = match s.fetchNext with
      | .stops c w => .next (s.endRun c w)
      | .instr i => exec i s := by
  unfold step
  cases s.fetchNext <;> simp [h]

/-- A step that answers a next state: the machine was running, and either the fetch stopped the run
or the instruction at the pc was executed. -/
theorem step_inv {s t : State} (h : step s = .next t) :
    s.status = .running ∧
      ((∃ c w, s.fetchNext = .stops c w ∧ t = s.endRun c w) ∨
        ∃ i, s.fetchNext = .instr i ∧ exec i s = .next t) := by
  have hr : s.status = .running := by
    cases hs : s.status <;> simp [step, hs] at h ⊢
  refine ⟨hr, ?_⟩
  rw [step_running hr] at h
  cases hf : s.fetchNext with
  | stops c w => rw [hf] at h; exact .inl ⟨c, w, rfl, by cases h; rfl⟩
  | instr i => rw [hf] at h; exact .inr ⟨i, rfl, h⟩

/-- A stop of the fetch ends the run (R230). -/
theorem step_of_stops {s : State} {c : Condition} {w : Option Word} (hr : s.status = .running)
    (h : s.fetchNext = .stops c w) : step s = .next (s.endRun c w) := by
  rw [step_running hr, h]

/-- A found instruction is executed (R230). -/
theorem step_of_instr {s : State} {i : Instr} (hr : s.status = .running)
    (h : s.fetchNext = .instr i) : step s = exec i s := by
  rw [step_running hr, h]

end Sys2Proof.Machine
end

