-- ==== Sys2Proof/Tests/Slice0.lean ====
section
/-!
SUPPORT. Tests and witnesses. The words and the expected results are those of the spec's own tables:
R106 of spec/30_encoding.md, the examples of the instructions' rules, R245 of
spec/48_execution_loop.md, and the vectors V-RR to V-LOOP of spec/95_test_vectors.md; each comment
names the table. A `test_` theorem checks the model on one value; a `witness_` theorem shows a state
and operands that meet the hypotheses of an obligation, one for each of its clauses.
-/

namespace Sys2Proof.Tests

open Sys2Proof Sys2Proof.Machine

/-! ## Small states -/

/-- 0x1000 bytes of memory, the pc at 0x100, a budget of 10: the setting of spec/95 part 2. -/
def bare (m : Bool) : State := State.resetWith ⟨0x1000, 0x100#32, m, 10⟩ []

/-- The same with `x[5]` and `x[6]` given. -/
def pair (a b : Word) : State := ((bare true).writeReg 5 a).writeReg 6 b

/-- The state after one step, if there is one. -/
def after (s : State) : Option State :=
  match step s with
  | .next t => some t
  | .fault _ => none
  | .refused _ => none

/-- What the property says of the state after one step; false if there is none. -/
def afterHas (s : State) (p : State → Bool) : Bool :=
  match after s with
  | some t => p t
  | none => false

/-- `x[7]` after the word `w` runs at 0x100 with `x[5] = a` and `x[6] = b`, the pc having gone on by 4
and one instruction being counted. -/
def gives (w a b v : Word) : Bool :=
  afterHas ((pair a b).loadAtPc w)
    (fun t => t.readReg 7 == v && t.pc == 0x104#32 && t.icount == 1 && t.status == .running)

/-- The pc after the word `w` runs at 0x100 with `x[5] = a` and `x[6] = b`. -/
def goesTo (w a b p : Word) : Bool :=
  afterHas ((pair a b).loadAtPc w)
    (fun t => t.pc == p && t.regs == (pair a b).regs && t.icount == 1 && t.status == .running)

/-- The step ends the run with this report and leaves pc, registers, memory and count. -/
def stops (s : State) (st : Status) (r : Report) : Bool :=
  afterHas s (fun t => t.status == st && t.report == some r && t.pc == s.pc && t.regs == s.regs &&
    t.mem == s.mem && t.icount == s.icount)

/-- The word is a DecodeFault, for this toggle. -/
def refusedBy (m : Bool) (w : Word) : Bool :=
  match decode m w with
  | .instr _ => false
  | .decodeFault _ => true

/-- Every word of the list is a DecodeFault whatever the toggle. -/
def allRefused (ws : List Word) : Bool := ws.all (fun w => refusedBy false w && refusedBy true w)

/-! ## Well-formedness: an ill-formed term for each check (R90, R92) -/

theorem test_illformed_beq : (Instr.beq 1 2 3#13).wellFormed = false := by decide
theorem test_illformed_bne : (Instr.bne 1 2 1#13).wellFormed = false := by decide
theorem test_illformed_blt : (Instr.blt 1 2 5#13).wellFormed = false := by decide
theorem test_illformed_bge : (Instr.bge 1 2 0x1FFF#13).wellFormed = false := by decide
theorem test_illformed_bltu : (Instr.bltu 1 2 7#13).wellFormed = false := by decide
theorem test_illformed_bgeu : (Instr.bgeu 1 2 9#13).wellFormed = false := by decide
theorem test_illformed_jal : (Instr.jal 1 0x1FFFFF#21).wellFormed = false := by decide

/-- The farthest offsets of a branch and of JAL are well-formed (R90, R92). -/
theorem test_wellformed_ends :
    (Instr.beq 0 0 (BitVec.ofInt 13 (-4096))).wellFormed = true ∧
    (Instr.bgeu 0 0 4094#13).wellFormed = true ∧
    (Instr.jal 0 (BitVec.ofInt 21 (-1048576))).wellFormed = true ∧
    (Instr.jal 0 1048574#21).wellFormed = true := by decide

/-! ## Decoding: one word of each family bit by bit from its format (R82 to R87, R96) -/

/-- R82: `funct7 rs2 rs1 funct3 rd opcode`, `sub x3, x1, x2`. -/
theorem test_bits_sub :
    decode false (0b0100000#7 ++ 0b00010#5 ++ 0b00001#5 ++ 0b000#3 ++ 0b00011#5 ++ 0b0110011#7) =
      .instr (.sub 3 1 2) := by decide

/-- R83: `imm rs1 funct3 rd opcode`, `addi x2, x2, -16`. -/
theorem test_bits_addi :
    decode false (0b111111110000#12 ++ 0b00010#5 ++ 0b000#3 ++ 0b00010#5 ++ 0b0010011#7) =
      .instr (.addi 2 2 (BitVec.ofInt 12 (-16))) := by decide

/-- R83, R93: `w[31:25] shamt rs1 funct3 rd opcode`, `srai x5, x6, 3`. -/
theorem test_bits_srai :
    decode false (0b0100000#7 ++ 0b00011#5 ++ 0b00110#5 ++ 0b101#3 ++ 0b00101#5 ++ 0b0010011#7) =
      .instr (.srai 5 6 3#5) := by decide

/-- R83: `lw x5, 8(x2)`. -/
theorem test_bits_lw :
    decode false (0b000000001000#12 ++ 0b00010#5 ++ 0b010#3 ++ 0b00101#5 ++ 0b0000011#7) =
      .instr (.lw 5 2 8#12) := by decide

/-- R84: `imm[11:5] rs2 rs1 funct3 imm[4:0] opcode`, `sw x1, -4(x2)`. -/
theorem test_bits_sw :
    decode false (0b1111111#7 ++ 0b00001#5 ++ 0b00010#5 ++ 0b010#3 ++ 0b11100#5 ++ 0b0100011#7) =
      .instr (.sw 2 1 (BitVec.ofInt 12 (-4))) := by decide

/-- R85: `imm[12] imm[10:5] rs2 rs1 funct3 imm[4:1] imm[11] opcode`, an offset with every field
set and clear: 1 1 010101 0110 0 is -4096 + 2048 + 672 + 12. -/
theorem test_bits_bne :
    decode false (0b1#1 ++ 0b010101#6 ++ 0b01011#5 ++ 0b01010#5 ++ 0b001#3 ++ 0b0110#4 ++ 0b1#1 ++
      0b1100011#7) = .instr (.bne 10 11 (BitVec.ofInt 13 (-1364))) := by decide

/-- R87: `imm[20] imm[10:1] imm[11] imm[19:12] rd opcode`, -1048576 + 129 * 4096 + 16. -/
theorem test_bits_jal :
    decode false (0b1#1 ++ 0b0000001000#10 ++ 0b0#1 ++ 0b10000001#8 ++ 0b00001#5 ++ 0b1101111#7) =
      .instr (.jal 1 (BitVec.ofInt 21 (-520176))) := by decide

/-- R83: `jalr x1, -4(x5)`. -/
theorem test_bits_jalr :
    decode false (0b111111111100#12 ++ 0b00101#5 ++ 0b000#3 ++ 0b00001#5 ++ 0b1100111#7) =
      .instr (.jalr 1 5 (BitVec.ofInt 12 (-4))) := by decide

/-- R86: `imm[31:12] rd opcode`, `lui x5, 0x12345`. -/
theorem test_bits_lui :
    decode false (0b00010010001101000101#20 ++ 0b00101#5 ++ 0b0110111#7) =
      .instr (.lui 5 0x12345#20) := by decide

/-- R82: `mul x5, x6, x7`. -/
theorem test_bits_mul :
    decode true (0b0000001#7 ++ 0b00111#5 ++ 0b00110#5 ++ 0b000#3 ++ 0b00101#5 ++ 0b0110011#7) =
      .instr (.mul 5 6 7) := by decide

/-- R220: `ebreak`. -/
theorem test_bits_ebreak :
    decode false (0b000000000001#12 ++ 0b00000#5 ++ 0b000#3 ++ 0b00000#5 ++ 0b1110011#7) =
      .instr .ebreak := by decide

/-! ## Decoding and encoding: a word of every constructor -/

/-- The word decodes to the instruction and is its encoding. -/
def isWordOf (m : Bool) (w : Word) (i : Instr) : Bool := decode m w == .instr i && encode i == w

/-- V-RR. -/
theorem test_words_regreg :
    (isWordOf false 0x006283B3#32 (.add 7 5 6) &&
      isWordOf false 0x406283B3#32 (.sub 7 5 6) &&
      isWordOf false 0x006293B3#32 (.sll 7 5 6) &&
      isWordOf false 0x0062A3B3#32 (.slt 7 5 6) &&
      isWordOf false 0x0062B3B3#32 (.sltu 7 5 6) &&
      isWordOf false 0x0062C3B3#32 (.xor 7 5 6) &&
      isWordOf false 0x0062D3B3#32 (.srl 7 5 6) &&
      isWordOf false 0x4062D3B3#32 (.sra 7 5 6) &&
      isWordOf false 0x0062E3B3#32 (.or 7 5 6) &&
      isWordOf false 0x0062F3B3#32 (.and 7 5 6)) = true := by decide

/-- V-RI. -/
theorem test_words_regimm :
    (isWordOf false 0x80028393#32 (.addi 7 5 (BitVec.ofInt 12 (-2048))) &&
      isWordOf false 0x8002A393#32 (.slti 7 5 (BitVec.ofInt 12 (-2048))) &&
      isWordOf false 0x8002B393#32 (.sltiu 7 5 (BitVec.ofInt 12 (-2048))) &&
      isWordOf false 0x5552C393#32 (.xori 7 5 1365#12) &&
      isWordOf false 0x0F02E393#32 (.ori 7 5 240#12) &&
      isWordOf false 0xFF02F393#32 (.andi 7 5 (BitVec.ofInt 12 (-16))) &&
      isWordOf false 0x01F29393#32 (.slli 7 5 31#5) &&
      isWordOf false 0x0012D393#32 (.srli 7 5 1#5) &&
      isWordOf false 0x41F2D393#32 (.srai 7 5 31#5)) = true := by decide

/-- V-LS. -/
theorem test_words_memory :
    (isWordOf false 0xFFC2A383#32 (.lw 7 5 (BitVec.ofInt 12 (-4))) &&
      isWordOf false 0x8062A023#32 (.sw 5 6 (BitVec.ofInt 12 (-2048))) &&
      isWordOf false 0x0062A0A3#32 (.sw 5 6 1#12)) = true := by decide

/-- V-BR, whose offset is +16. -/
theorem test_words_branch :
    (isWordOf false 0x00628863#32 (.beq 5 6 16#13) &&
      isWordOf false 0x00629863#32 (.bne 5 6 16#13) &&
      isWordOf false 0x0062C863#32 (.blt 5 6 16#13) &&
      isWordOf false 0x0062D863#32 (.bge 5 6 16#13) &&
      isWordOf false 0x0062E863#32 (.bltu 5 6 16#13) &&
      isWordOf false 0x0062F863#32 (.bgeu 5 6 16#13)) = true := by decide

/-- V-BR, offsets. -/
theorem test_words_branch_offsets :
    (isWordOf false 0xFE000EE3#32 (.beq 0 0 (BitVec.ofInt 13 (-4))) &&
      isWordOf false 0x7E000FE3#32 (.beq 0 0 4094#13) &&
      isWordOf false 0x80000063#32 (.beq 0 0 (BitVec.ofInt 13 (-4096))) &&
      isWordOf false 0x7E001FE3#32 (.bne 0 0 4094#13)) = true := by decide

/-- V-JAL and V-JALR. -/
theorem test_words_jumps :
    (isWordOf false 0x010000EF#32 (.jal 1 16#21) &&
      isWordOf false 0xFF9FF06F#32 (.jal 0 (BitVec.ofInt 21 (-8))) &&
      isWordOf false 0x7FFFF2EF#32 (.jal 5 1048574#21) &&
      isWordOf false 0x800000EF#32 (.jal 1 (BitVec.ofInt 21 (-1048576))) &&
      isWordOf false 0xFFF002E7#32 (.jalr 5 0 (BitVec.ofInt 12 (-1))) &&
      isWordOf false 0x7FF28067#32 (.jalr 0 5 2047#12)) = true := by decide

/-- V-UI. -/
theorem test_words_upper :
    (isWordOf false 0x123452B7#32 (.lui 5 0x12345#20) &&
      isWordOf false 0x80000297#32 (.auipc 5 0x80000#20)) = true := by decide

/-- V-M. -/
theorem test_words_muldiv :
    (isWordOf true 0x026283B3#32 (.mul 7 5 6) &&
      isWordOf true 0x026293B3#32 (.mulh 7 5 6) &&
      isWordOf true 0x0262A3B3#32 (.mulhsu 7 5 6) &&
      isWordOf true 0x0262B3B3#32 (.mulhu 7 5 6) &&
      isWordOf true 0x0262C3B3#32 (.div 7 5 6) &&
      isWordOf true 0x0262D3B3#32 (.divu 7 5 6) &&
      isWordOf true 0x0262E3B3#32 (.rem 7 5 6) &&
      isWordOf true 0x0262F3B3#32 (.remu 7 5 6)) = true := by decide

/-- R106 and V-DEC. -/
theorem test_words_halt_and_nop :
    (isWordOf false 0x00100073#32 (.ebreak) &&
      isWordOf false 0x00000013#32 (.addi 0 0 0#12)) = true := by decide

/-! ## Words that are no instruction (V-DEC) -/

/-- V-DEC rows 3 to 10: ECALL, URET, EBREAK with `rd` or `rs1`, MRET, WFI, CSRRS, CSRRW. -/
theorem test_refused_system :
    allRefused [0x00000073#32, 0x00200073#32, 0x001000F3#32, 0x00108073#32, 0x30200073#32,
      0x10500073#32, 0xC0002573#32, 0x34029073#32] = true := by decide

/-- V-DEC rows 11 to 15 and 37 to 42: FENCE, FENCE.I, zero, ones, a compressed word, other opcodes. -/
theorem test_refused_opcode :
    allRefused [0x0FF0000F#32, 0x0000100F#32, 0x00000000#32, 0xFFFFFFFF#32, 0x00004501#32,
      0x0000002F#32, 0x00000007#32, 0x00000053#32, 0x0000000B#32, 0x0000001B#32,
      0x0000003B#32] = true := by decide

/-- V-DEC rows 16 to 24: the sub-word accesses and the wider ones. -/
theorem test_refused_memory :
    allRefused [0x00000003#32, 0x00001003#32, 0x00004003#32, 0x00005003#32, 0x00003003#32,
      0x00006003#32, 0x00000023#32, 0x00001023#32, 0x00003023#32] = true := by decide

/-- V-DEC rows 25 to 34: unassigned `funct3` and `funct7`. -/
theorem test_refused_minor :
    allRefused [0x00002063#32, 0x00003063#32, 0x00001067#32, 0x40001033#32, 0x40007033#32,
      0x20000033#32, 0x02001013#32, 0x40001013#32, 0x02005013#32, 0x80005013#32] = true := by decide

/-- V-DEC rows 35 and 36: the toggle. -/
theorem test_toggle :
    (refusedBy false 0x027302B3#32 && refusedBy false 0x0262C3B3#32 &&
      !refusedBy true 0x027302B3#32 && !refusedBy true 0x0262C3B3#32) = true := by decide

/-- Fewer than four bytes are no instruction. -/
theorem test_truncated : decodeBytes true [0x13#8, 0x00#8, 0x00#8] = .decodeFault .truncated := by
  decide

/-- The bytes of `ebreak` in memory order (R220). -/
theorem test_bytes_ebreak :
    decodeBytes false [0x73#8, 0x00#8, 0x10#8, 0x00#8] = .instr .ebreak ∧
      bytesOfWord 0x00100073#32 = [0x73#8, 0x00#8, 0x10#8, 0x00#8] := by decide

/-- A table word is laid out and read back. -/
theorem test_table_word : decodeTableWord 32 0x00100073 = some .ebreak := by decide

/-! ## One step of each instruction -/

/-! ### Register-register (V-RR) -/

/-- V-RR row 3. -/
theorem test_add_wraps :
    gives 0x006283B3#32 0x7FFFFFFF#32 0x00000001#32 0x80000000#32 = true := by decide

/-- V-RR row 2. -/
theorem test_sub_order :
    gives 0x406283B3#32 0x00000001#32 0x00000002#32 0xFFFFFFFF#32 = true := by decide

/-- V-RR row 9: an amount of 33 shifts by 1. -/
theorem test_sll_amount :
    gives 0x006293B3#32 0x80000001#32 0x00000021#32 0x00000002#32 = true := by decide

/-- V-RR row 5. -/
theorem test_slt_signed :
    gives 0x0062A3B3#32 0xFFFFFFFF#32 0x00000001#32 0x00000001#32 = true := by decide

/-- V-RR row 14. -/
theorem test_slt_order :
    gives 0x0062A3B3#32 0x00000001#32 0x80000000#32 0x00000000#32 = true := by decide

/-- V-RR row 5. -/
theorem test_sltu_unsigned :
    gives 0x0062B3B3#32 0xFFFFFFFF#32 0x00000001#32 0x00000000#32 = true := by decide

/-- V-RR row 13. -/
theorem test_sltu_less :
    gives 0x0062B3B3#32 0x80000000#32 0xFFFFFFFF#32 0x00000001#32 = true := by decide

/-- V-RR row 12. -/
theorem test_xor :
    gives 0x0062C3B3#32 0xDEADBEEF#32 0x0000FFFF#32 0xDEAD4110#32 = true := by decide

/-- V-RR row 5. -/
theorem test_srl_zero_fill :
    gives 0x0062D3B3#32 0xFFFFFFFF#32 0x00000001#32 0x7FFFFFFF#32 = true := by decide

/-- V-RR row 8: an amount of 32 shifts by 0. -/
theorem test_srl_amount :
    gives 0x0062D3B3#32 0x80000000#32 0x00000020#32 0x80000000#32 = true := by decide

/-- V-RR row 4. -/
theorem test_sra_sign_fill :
    gives 0x4062D3B3#32 0x80000000#32 0x00000001#32 0xC0000000#32 = true := by decide

/-- V-RR row 9. -/
theorem test_sra_amount :
    gives 0x4062D3B3#32 0x80000001#32 0x00000021#32 0xC0000000#32 = true := by decide

/-- V-RR row 12. -/
theorem test_or :
    gives 0x0062E3B3#32 0xDEADBEEF#32 0x0000FFFF#32 0xDEADFFFF#32 = true := by decide

/-- V-RR row 12. -/
theorem test_and :
    gives 0x0062F3B3#32 0xDEADBEEF#32 0x0000FFFF#32 0x0000BEEF#32 = true := by decide

/-- V-RR notes: `sub x5, x5, x5` reads its sources before it writes. -/
theorem test_sub_same :
    afterHas ((pair 0x40000000#32 0#32).loadAtPc 0x405282B3#32) (fun t => t.readReg 5 == 0#32) =
      true := by decide

/-- V-RR notes: `add x0, x5, x6` changes no register. -/
theorem test_add_x0 : goesTo 0x00628033#32 7#32 9#32 0x104#32 = true := by decide

/-! ### Register-immediate (V-RI) -/

/-- V-RI row 1. -/
theorem test_addi_wraps :
    gives 0x00128393#32 0x7FFFFFFF#32 0x0#32 0x80000000#32 = true := by decide

/-- V-RI row 4. -/
theorem test_addi_min :
    gives 0x80028393#32 0x00000800#32 0x0#32 0x00000000#32 = true := by decide

/-- V-RI row 8. -/
theorem test_slti_min :
    gives 0x8002A393#32 0x80000000#32 0x0#32 0x00000001#32 = true := by decide

/-- V-RI row 13. -/
theorem test_sltiu_sign_extends :
    gives 0x8002B393#32 0xFFFFF7FF#32 0x0#32 0x00000001#32 = true := by decide

/-- V-RI row 12. -/
theorem test_sltiu_equal :
    gives 0xFFF2B393#32 0xFFFFFFFF#32 0x0#32 0x00000000#32 = true := by decide

/-- V-RI row 15. -/
theorem test_xori :
    gives 0x5552C393#32 0xFFFFFFFF#32 0x0#32 0xFFFFFAAA#32 = true := by decide

/-- V-RI row 16. -/
theorem test_ori_sign_extends :
    gives 0x8002E393#32 0x000000FF#32 0x0#32 0xFFFFF8FF#32 = true := by decide

/-- V-RI row 19. -/
theorem test_andi_sign_extends :
    gives 0xFF02F393#32 0x12345678#32 0x0#32 0x12345670#32 = true := by decide

/-- V-RI row 23. -/
theorem test_slli :
    gives 0x00429393#32 0xF2345678#32 0x0#32 0x23456780#32 = true := by decide

/-- V-RI row 24. -/
theorem test_srli :
    gives 0x01F2D393#32 0x80000000#32 0x0#32 0x00000001#32 = true := by decide

/-- V-RI row 27. -/
theorem test_srai :
    gives 0x41F2D393#32 0x80000000#32 0x0#32 0xFFFFFFFF#32 = true := by decide

/-- V-RI row 29. -/
theorem test_srai_positive :
    gives 0x4042D393#32 0x7FFFFFFF#32 0x0#32 0x07FFFFFF#32 = true := by decide

/-! ### Load and store (V-LS) -/

/-- V-LS's memory: 0xCAFEBABE at 0x200, 0x11 at 0xFFC. -/
def lsMem : Memory := Memory.setWord (Memory.setWord [] 0x200 0xCAFEBABE#32) 0xFFC 0x11#32

/-- V-LS's state. -/
def lsState (w a b : Word) : State := { pair a b with mem := lsMem }.loadAtPc w

/-- V-LS rows 3 to 5: the address wraps; `lw x0, 0(x5)` changes no register; `lw x5, 0(x5)` takes its
address from the old `x[5]`. -/
theorem test_lw :
    (afterHas (lsState 0x7FF2A383#32 0xFFFFFA01#32 0#32) (fun t => t.readReg 7 == 0xCAFEBABE#32) &&
      afterHas (lsState 0x0002A003#32 0x200#32 0#32)
        (fun t => t.regs == (pair 0x200#32 0#32).regs && t.pc == 0x104#32) &&
      afterHas (lsState 0x0002A283#32 0x200#32 0#32) (fun t => t.readReg 5 == 0xCAFEBABE#32)) =
      true := by decide

/-- V-LS rows 7, 11 and 12: just past memory; the top of the address space; misaligned and outside. -/
theorem test_lw_faults :
    (stops (lsState 0x0002A383#32 0x1000#32 0#32) .faulted
        ⟨.outOfBoundsFault, 0x100#32, some 0x0002A383#32⟩ &&
      stops (lsState 0xFFC02383#32 0#32 0#32) .faulted
        ⟨.outOfBoundsFault, 0x100#32, some 0xFFC02383#32⟩ &&
      stops (lsState 0x0002A383#32 0x1001#32 0#32) .faulted
        ⟨.alignmentFault, 0x100#32, some 0x0002A383#32⟩) = true := by decide

/-- V-LS rows 13 and 15: little-endian and no byte beside the four; `sw x0, 0(x5)` over 0xCAFEBABE
stores zeros, which the canonical form lists nowhere. -/
theorem test_sw :
    (afterHas (lsState 0x0062A023#32 0x300#32 0x12345678#32) (fun t =>
        Memory.byteAt t.mem 0x2FF == 0#8 && Memory.byteAt t.mem 0x300 == 0x78#8 &&
        Memory.byteAt t.mem 0x301 == 0x56#8 && Memory.byteAt t.mem 0x302 == 0x34#8 &&
        Memory.byteAt t.mem 0x303 == 0x12#8 && Memory.byteAt t.mem 0x304 == 0#8) &&
      afterHas (lsState 0x0002A023#32 0x200#32 0#32) (fun t =>
        Memory.byteAt t.mem 0x200 == 0#8 && Memory.byteAt t.mem 0x203 == 0#8 &&
        t.mem.all (fun c => c.1 != 0x200))) = true := by decide

/-- V-LS rows 18 to 20. -/
theorem test_sw_faults :
    (stops (lsState 0x0062A223#32 0xFFC#32 1#32) .faulted
        ⟨.outOfBoundsFault, 0x100#32, some 0x0062A223#32⟩ &&
      stops (lsState 0x0062A0A3#32 0x300#32 1#32) .faulted
        ⟨.alignmentFault, 0x100#32, some 0x0062A0A3#32⟩ &&
      stops (lsState 0xFE612E23#32 0#32 1#32) .faulted
        ⟨.outOfBoundsFault, 0x100#32, some 0xFE612E23#32⟩) = true := by decide

/-! ### Branches (V-BR): taken to 0x110, not taken to 0x104 -/

/-- V-BR rows 8, 7. -/
theorem test_beq :
    (goesTo 0x00628863#32 0xFFFFFFFF#32 0xFFFFFFFF#32 0x110#32 &&
      goesTo 0x00628863#32 0x7FFFFFFF#32 0x80000000#32 0x104#32) = true := by decide

/-- V-BR rows 8, 7. -/
theorem test_bne :
    (goesTo 0x00629863#32 0xFFFFFFFF#32 0xFFFFFFFF#32 0x104#32 &&
      goesTo 0x00629863#32 0x7FFFFFFF#32 0x80000000#32 0x110#32) = true := by decide

/-- V-BR rows 6, 7, 8. -/
theorem test_blt :
    (goesTo 0x0062C863#32 0x80000000#32 0x7FFFFFFF#32 0x110#32 &&
      goesTo 0x0062C863#32 0x7FFFFFFF#32 0x80000000#32 0x104#32 &&
      goesTo 0x0062C863#32 0xFFFFFFFF#32 0xFFFFFFFF#32 0x104#32) = true := by decide

/-- V-BR rows 6, 7, 9. -/
theorem test_bge :
    (goesTo 0x0062D863#32 0x80000000#32 0x7FFFFFFF#32 0x104#32 &&
      goesTo 0x0062D863#32 0x7FFFFFFF#32 0x80000000#32 0x110#32 &&
      goesTo 0x0062D863#32 0x80000000#32 0x80000000#32 0x110#32) = true := by decide

/-- V-BR rows 6, 7, 8. -/
theorem test_bltu :
    (goesTo 0x0062E863#32 0x80000000#32 0x7FFFFFFF#32 0x104#32 &&
      goesTo 0x0062E863#32 0x7FFFFFFF#32 0x80000000#32 0x110#32 &&
      goesTo 0x0062E863#32 0xFFFFFFFF#32 0xFFFFFFFF#32 0x104#32) = true := by decide

/-- V-BR rows 6, 7, 9. -/
theorem test_bgeu :
    (goesTo 0x0062F863#32 0x80000000#32 0x7FFFFFFF#32 0x110#32 &&
      goesTo 0x0062F863#32 0x7FFFFFFF#32 0x80000000#32 0x104#32 &&
      goesTo 0x0062F863#32 0x80000000#32 0x80000000#32 0x110#32) = true := by decide

/-- V-BR, offsets: -4, +4094, -4096 (which wraps), and +4094 not taken. -/
theorem test_branch_offsets :
    (goesTo 0xFE000EE3#32 0#32 0#32 0xFC#32 && goesTo 0x7E000FE3#32 0#32 0#32 0x10FE#32 &&
      goesTo 0x80000063#32 0#32 0#32 0xFFFFF100#32 && goesTo 0x7E001FE3#32 0#32 0#32 0x104#32) =
      true := by decide

/-! ### Jumps (V-JAL, V-JALR) -/

/-- V-JAL rows 1 and 5. -/
theorem test_jal :
    (afterHas ((bare false).loadAtPc 0x010000EF#32)
        (fun t => t.readReg 1 == 0x104#32 && t.pc == 0x110#32) &&
      afterHas ((bare false).loadAtPc 0x800000EF#32)
        (fun t => t.readReg 1 == 0x104#32 && t.pc == 0xFFF00100#32)) = true := by decide

/-- V-JAL row 2: no link. -/
theorem test_jal_x0 : goesTo 0xFF9FF06F#32 0#32 0#32 0xF8#32 = true := by decide

/-- V-JALR row 2: the target comes from the old `x[1]`. -/
theorem test_jalr_same :
    afterHas (((bare false).writeReg 1 0x200#32).loadAtPc 0x000080E7#32)
      (fun t => t.readReg 1 == 0x104#32 && t.pc == 0x200#32) = true := by decide

/-- V-JALR rows 4 and 6: bit 0 alone is cleared. -/
theorem test_jalr_clears_bit0 :
    (afterHas ((pair 0x1FD#32 0#32).loadAtPc 0x004280E7#32) (fun t => t.pc == 0x200#32) &&
      afterHas ((pair 0x200#32 0#32).loadAtPc 0x003280E7#32) (fun t => t.pc == 0x202#32)) =
      true := by decide

/-! ### Upper-immediate forms (V-UI) -/

/-- V-UI rows 1 and 4. -/
theorem test_lui :
    (afterHas ((bare false).loadAtPc 0x123452B7#32) (fun t => t.readReg 5 == 0x12345000#32) &&
      afterHas ((bare false).loadAtPc 0x800002B7#32) (fun t => t.readReg 5 == 0x80000000#32)) =
      true := by decide

/-- V-UI rows 7 and 8. -/
theorem test_auipc :
    (afterHas ((bare false).loadAtPc 0x00001297#32) (fun t => t.readReg 5 == 0x1100#32) &&
      afterHas ((bare false).loadAtPc 0xFFFFF297#32) (fun t => t.readReg 5 == 0xFFFFF100#32)) =
      true := by decide

/-! ### Multiply and divide (V-M) -/

/-- V-M row 1. -/
theorem test_mul :
    gives 0x026283B3#32 0x000186A0#32 0x000186A0#32 0x540BE400#32 = true := by decide

/-- V-M row 2. -/
theorem test_mul_overflow_pair :
    gives 0x026283B3#32 0x80000000#32 0xFFFFFFFF#32 0x80000000#32 = true := by decide

/-- V-M row 11. -/
theorem test_mulh_min :
    gives 0x026293B3#32 0x80000000#32 0x80000000#32 0x40000000#32 = true := by decide

/-- V-M row 10. -/
theorem test_mulh_signs :
    gives 0x026293B3#32 0xFFFFFFFF#32 0xFFFFFFFF#32 0x00000000#32 = true := by decide

/-- V-M row 7. -/
theorem test_mulhsu_order :
    gives 0x0262A3B3#32 0x00000007#32 0xFFFFFFFE#32 0x00000006#32 = true := by decide

/-- V-M row 10. -/
theorem test_mulhsu_signs :
    gives 0x0262A3B3#32 0xFFFFFFFF#32 0xFFFFFFFF#32 0xFFFFFFFF#32 = true := by decide

/-- V-M row 10. -/
theorem test_mulhu :
    gives 0x0262B3B3#32 0xFFFFFFFF#32 0xFFFFFFFF#32 0xFFFFFFFE#32 = true := by decide

/-- V-M row 6. -/
theorem test_div_toward_zero :
    gives 0x0262C3B3#32 0xFFFFFFF9#32 0x00000002#32 0xFFFFFFFD#32 = true := by decide

/-- V-M row 2. -/
theorem test_div_overflow :
    gives 0x0262C3B3#32 0x80000000#32 0xFFFFFFFF#32 0x80000000#32 = true := by decide

/-- V-M row 6. -/
theorem test_divu :
    gives 0x0262D3B3#32 0xFFFFFFF9#32 0x00000002#32 0x7FFFFFFC#32 = true := by decide

/-- V-M row 3. -/
theorem test_divu_zero :
    gives 0x0262D3B3#32 0x00000007#32 0x00000000#32 0xFFFFFFFF#32 = true := by decide

/-- V-M row 7. -/
theorem test_rem_sign :
    gives 0x0262E3B3#32 0x00000007#32 0xFFFFFFFE#32 0x00000001#32 = true := by decide

/-- V-M row 4. -/
theorem test_rem_zero :
    gives 0x0262E3B3#32 0xFFFFFFF9#32 0x00000000#32 0xFFFFFFF9#32 = true := by decide

/-- V-M row 2. -/
theorem test_remu :
    gives 0x0262F3B3#32 0x80000000#32 0xFFFFFFFF#32 0x80000000#32 = true := by decide

/-- V-M row 3. -/
theorem test_remu_zero :
    gives 0x0262F3B3#32 0x00000007#32 0x00000000#32 0x00000007#32 = true := by decide

/-- V-M, last line: with the extension disabled the word of MUL stops the run. -/
theorem test_disabled_extension :
    stops ((bare false).loadAtPc 0x026283B3#32) .faulted
      ⟨.decodeFault, 0x100#32, some 0x026283B3#32⟩ = true := by decide

/-! ### The halt, the budget and the fetch (R245, V-LOOP) -/

/-- A machine of R245: 0x1000 bytes, the entry address and the budget given. -/
def loopState (entry : Word) (budget : Nat) (image : Memory) : State :=
  State.resetWith ⟨0x1000, entry, false, budget⟩ image

/-- R245 (a): EBREAK with a budget of 1 halts, is counted, and leaves the pc. -/
theorem test_ebreak :
    afterHas (loopState 0#32 1 (Memory.setWord [] 0 0x00100073#32)) (fun t =>
      t.status == .halted && t.icount == 1 && t.pc == 0#32 && t.report == none &&
      t.result == some 0#32) = true := by decide

/-- R245 (a): with a budget of 0 nothing is fetched. -/
theorem test_budget :
    stops (loopState 0#32 0 (Memory.setWord [] 0 0x00100073#32)) .budgetExceeded
      ⟨.budgetExceeded, 0#32, none⟩ = true := by decide

/-- R245 (c): the all-ones word. -/
theorem test_decode_fault :
    stops (loopState 4#32 10 (Memory.setWord [] 4 0xFFFFFFFF#32)) .faulted
      ⟨.decodeFault, 4#32, some 0xFFFFFFFF#32⟩ = true := by decide

/-- R245 (d), second step: the fetch past memory. -/
theorem test_fetch_outside :
    stops (loopState 0x1000#32 10 []) .faulted ⟨.outOfBoundsFault, 0x1000#32, none⟩ = true := by
  decide

/-- R245 (e): the misaligned entry address. -/
theorem test_fetch_misaligned :
    stops (loopState 2#32 10 []) .faulted ⟨.alignmentFault, 2#32, none⟩ = true := by decide

/-- V-LOOP: with 2^32 bytes of memory the pc wraps from 0xFFFFFFFC to 0. -/
theorem test_pc_wraps :
    afterHas (State.resetWith ⟨2 ^ 32, 0xFFFFFFFC#32, false, 10⟩
        (Memory.setWord [] 0xFFFFFFFC 0x00000013#32)) (fun t => t.pc == 0#32 && t.icount == 1) =
      true := by decide

/-- With fewer than 4 bytes of memory every fetch is outside (R52). -/
theorem test_tiny_memory :
    stops (State.resetWith ⟨3, 0#32, false, 10⟩ []) .faulted ⟨.outOfBoundsFault, 0#32, none⟩ =
      true := by decide

/-- An ended machine takes no step, and the name says how it ended (R221, log 4). -/
theorem test_ended :
    (match step { bare false with status := .halted } with
      | .fault .alreadyHalted => true | _ => false) = true ∧
    (match step { bare false with status := .faulted } with
      | .fault .alreadyFaulted => true | _ => false) = true ∧
    (match step { bare false with status := .budgetExceeded } with
      | .fault .alreadyBudgetExceeded => true | _ => false) = true := by decide

/-- From `State.reset` with nothing placed the first step stops with a DecodeFault (log 7); with a
word placed where it fetches, the step runs it. -/
theorem test_reset_step :
    (stops State.reset .faulted ⟨.decodeFault, 0#32, some 0#32⟩ &&
      afterHas (State.reset.withFetchWord 32 0x00500093) (fun t => t.readReg 1 == 5#32)) = true := by
  decide

/-! ## Witnesses of the hypotheses, clause by clause -/

/-- The masks of the encoding clauses of the register-register and multiply/divide statements:
`(pattern, word)` with the word of V-RR or V-M. -/
theorem witness_masks17 :
    ([(0x00000033#32, 0x006283B3#32), (0x40000033#32, 0x406283B3#32), (0x00001033#32, 0x006293B3#32),
      (0x00002033#32, 0x0062A3B3#32), (0x00003033#32, 0x0062B3B3#32), (0x00004033#32, 0x0062C3B3#32),
      (0x00005033#32, 0x0062D3B3#32), (0x40005033#32, 0x4062D3B3#32), (0x00006033#32, 0x0062E3B3#32),
      (0x00007033#32, 0x0062F3B3#32), (0x02000033#32, 0x026283B3#32), (0x02001033#32, 0x026293B3#32),
      (0x02002033#32, 0x0262A3B3#32), (0x02003033#32, 0x0262B3B3#32), (0x02004033#32, 0x0262C3B3#32),
      (0x02005033#32, 0x0262D3B3#32), (0x02006033#32, 0x0262E3B3#32), (0x02007033#32, 0x0262F3B3#32),
      (0x00001013#32, 0x01F29393#32), (0x00005013#32, 0x0012D393#32),
      (0x40005013#32, 0x41F2D393#32)] : List (Word × Word)).all
      (fun p => p.2 &&& 0xFE00707F#32 == p.1) = true := by decide

/-- The masks of the encoding clauses with a 12-bit immediate or a branch offset. -/
theorem witness_masks10 :
    ([(0x00000013#32, 0x80028393#32), (0x00002013#32, 0x8002A393#32), (0x00003013#32, 0x8002B393#32),
      (0x00004013#32, 0x5552C393#32), (0x00006013#32, 0x0F02E393#32), (0x00007013#32, 0xFF02F393#32),
      (0x00002003#32, 0xFFC2A383#32), (0x00002023#32, 0x8062A023#32), (0x00000063#32, 0x00628863#32),
      (0x00001063#32, 0x00629863#32), (0x00004063#32, 0x0062C863#32), (0x00005063#32, 0x0062D863#32),
      (0x00006063#32, 0x0062E863#32), (0x00007063#32, 0x0062F863#32),
      (0x00000067#32, 0x004280E7#32)] : List (Word × Word)).all
      (fun p => p.2 &&& 0x0000707F#32 == p.1) = true := by decide

/-- The masks of the encoding clauses of JAL, LUI and AUIPC. -/
theorem witness_masks7 :
    ([(0x0000006F#32, 0x010000EF#32), (0x00000037#32, 0x123452B7#32),
      (0x00000017#32, 0x00001297#32)] : List (Word × Word)).all
      (fun p => p.2 &&& 0x0000007F#32 == p.1) = true := by decide

/-- `ImmediateShifts`, the refused words: V-DEC rows 31 and 33. -/
theorem witness_ImmediateShifts_refused :
    (0x02001013#32 &&& 0x0000707F#32 = 0x00001013#32 ∧
      (0x02001013#32).extractLsb' 25 7 ≠ 0b0000000#7) ∧
    (0x02005013#32 &&& 0x0000707F#32 = 0x00005013#32 ∧
      (0x02005013#32).extractLsb' 25 7 ≠ 0b0000000#7 ∧
      (0x02005013#32).extractLsb' 25 7 ≠ 0b0100000#7) := by decide

/-- `JalrLinksAndJumps`, the refused words: V-DEC row 27. -/
theorem witness_JalrLinksAndJumps_refused :
    0x00001067#32 &&& 0x0000007F#32 = 0x00000067#32 ∧
      (0x00001067#32).extractLsb' 12 3 ≠ 0b000#3 := by decide

/-- `LoadWord`: the last word of memory, an address one below its end, the first address past it. -/
theorem witness_LoadWord :
    (((pair 0xFFC#32 0#32).effAddr 5 0#12).toNat % 4 = 0 ∧
      ((pair 0xFFC#32 0#32).effAddr 5 0#12).toNat + 4 ≤ (pair 0xFFC#32 0#32).cfg.memSize) ∧
    ((pair 0xFFC#32 0#32).effAddr 5 3#12).toNat % 4 ≠ 0 ∧
    (((pair 0xFFC#32 0#32).effAddr 5 4#12).toNat % 4 = 0 ∧
      (pair 0xFFC#32 0#32).cfg.memSize < ((pair 0xFFC#32 0#32).effAddr 5 4#12).toNat + 4) := by
  decide

/-- `StoreWord`: address 0, a misaligned address past memory, the last aligned address of all. -/
theorem witness_StoreWord :
    (((pair 0#32 1#32).effAddr 5 0#12).toNat % 4 = 0 ∧
      ((pair 0#32 1#32).effAddr 5 0#12).toNat + 4 ≤ (pair 0#32 1#32).cfg.memSize) ∧
    ((pair 0x1001#32 1#32).effAddr 5 0#12).toNat % 4 ≠ 0 ∧
    (((pair 0#32 1#32).effAddr 5 (BitVec.ofInt 12 (-4))).toNat % 4 = 0 ∧
      (pair 0#32 1#32).cfg.memSize <
        ((pair 0#32 1#32).effAddr 5 (BitVec.ofInt 12 (-4))).toNat + 4) := by decide

/-- `JalLinksAndJumps`: an even pc. -/
theorem witness_JalLinksAndJumps : (bare false).pc.toNat % 2 = 0 := by decide

/-- The call of V-JALR row 2 with the return of row 3 at its target. -/
def callState : State :=
  { (bare false).writeReg 1 0x200#32 with
    mem := Memory.setWord (Memory.setWord [] 0x100 0x000080E7#32) 0x200 0x00008067#32 }

/-- `SourceBeforeDestination`. -/
theorem witness_SourceBeforeDestination :
    (1 : Reg) ≠ 0 ∧ callState.status = .running ∧ callState.icount + 2 ≤ callState.cfg.budget ∧
    callState.pc.toNat % 4 = 0 ∧ callState.pc.toNat + 4 ≤ callState.cfg.memSize ∧
    (callState.readReg 1).toNat % 4 = 0 ∧
    (callState.readReg 1).toNat + 4 ≤ callState.cfg.memSize ∧
    decode callState.cfg.mEnabled (Memory.wordAt callState.mem callState.pc.toNat) =
      .instr (.jalr 1 1 0#12) ∧
    decode callState.cfg.mEnabled (Memory.wordAt callState.mem (callState.readReg 1).toNat) =
      .instr (.jalr 0 1 0#12) := by decide

/-- `LuiThenAddiBuildsConstant`, `HighAndLowMakeTheProduct`, `MultiplyLow`, `MultiplyHigh`,
`DivideSigned`, `RemainderSigned`, `DivideUnsigned`, `QuotientAndRemainderRecompose`: the extension
enabled, a destination other than `x0`, a nonzero divisor. -/
theorem witness_MulDiv :
    (pair 7#32 2#32).cfg.mEnabled = true ∧ (31 : Reg) ≠ 0 ∧ (pair 7#32 2#32).readReg 6 ≠ 0#32 := by
  decide

/-- `DivisionCorners` and the zero divisor of `DivideUnsigned`: both corners. -/
theorem witness_DivisionCorners :
    ((pair 7#32 0#32).cfg.mEnabled = true ∧ (pair 7#32 0#32).readReg 6 = 0#32) ∧
    ((pair 0x80000000#32 0xFFFFFFFF#32).cfg.mEnabled = true ∧
      (pair 0x80000000#32 0xFFFFFFFF#32).readReg 5 = 0x80000000#32 ∧
      (pair 0x80000000#32 0xFFFFFFFF#32).readReg 6 = 0xFFFFFFFF#32) := by decide

/-- `EbreakHalts` and `BudgetExceededRule`: a running machine whose budget is used up exactly. -/
theorem witness_EbreakHalts :
    (loopState 0#32 0 []).status = .running ∧
      (loopState 0#32 0 []).icount = (loopState 0#32 0 []).cfg.budget := by decide

/-- `ResultIsRegisterTen`: a step that halts, and a state that has not. -/
theorem witness_ResultIsRegisterTen :
    (∃ t, step (loopState 0#32 1 (Memory.setWord [] 0 0x00100073#32)) = .next t ∧
      t.status = .halted) ∧
    (bare false).status ≠ .halted := ⟨⟨_, rfl, by decide⟩, by decide⟩

/-- The last word of memory holds `ebreak`. -/
def lastWord : State := loopState 0xFFC#32 1 (Memory.setWord [] 0xFFC 0x00100073#32)

/-- `StepRunsTheDecodedInstruction`: the last word of memory, the last instruction of the budget. -/
theorem witness_StepRunsTheDecodedInstruction :
    lastWord.status = .running ∧ lastWord.icount < lastWord.cfg.budget ∧
    lastWord.pc.toNat % 4 = 0 ∧ lastWord.pc.toNat + 4 ≤ lastWord.cfg.memSize ∧
    0x00100073#32 = BitVec.ofNat 32 ((Memory.byteAt lastWord.mem lastWord.pc.toNat).toNat +
      2 ^ 8 * (Memory.byteAt lastWord.mem (lastWord.pc.toNat + 1)).toNat +
      2 ^ 16 * (Memory.byteAt lastWord.mem (lastWord.pc.toNat + 2)).toNat +
      2 ^ 24 * (Memory.byteAt lastWord.mem (lastWord.pc.toNat + 3)).toNat) ∧
    decode lastWord.cfg.mEnabled 0x00100073#32 = .instr .ebreak := by decide

/-- `BudgetExceededRule` and `DecodeFaultRule`, second clauses: states that carry such a report
already (no run executes from them). -/
theorem witness_report_kept :
    (∃ t, exec .ebreak { bare false with report := some ⟨.budgetExceeded, 0#32, none⟩ } = .next t ∧
      t.report = some ⟨.budgetExceeded, 0#32, none⟩) ∧
    (∃ t, exec .ebreak { bare false with report := some ⟨.decodeFault, 0#32, none⟩ } = .next t ∧
      t.report = some ⟨.decodeFault, 0#32, none⟩) := ⟨⟨_, rfl, rfl⟩, ⟨_, rfl, rfl⟩⟩

/-- `DecodeFaultRule`: a word no row accepts, and one no row accepts with the extension disabled;
so for `DecoderIsTheTable`. -/
theorem witness_DecodeFaultRule :
    ((bare false).status = .running ∧ (bare false).icount < (bare false).cfg.budget ∧
      (bare false).pc.toNat % 4 = 0 ∧ (bare false).pc.toNat + 4 ≤ (bare false).cfg.memSize ∧
      ∀ row ∈ encodingTable,
        ¬ row.Accepts (bare false).cfg.mEnabled
          (Memory.wordAt (bare false).mem (bare false).pc.toNat)) ∧
    ∀ row ∈ encodingTable, ¬ row.Accepts false 0x026283B3#32 := by
  simp only [EncodingRow.Accepts]
  decide

/-- The state whose load or store `w` is fetched with `x[5] = a`. -/
def fetched (w a : Word) : State := (pair a 0#32).loadAtPc w

/-- A running machine within its budget that fetches the word `w` at an aligned pc inside memory. -/
abbrev Fetches (s : State) (w : Word) : Prop :=
  s.status = .running ∧ s.icount < s.cfg.budget ∧ s.pc.toNat % 4 = 0 ∧
    s.pc.toNat + 4 ≤ s.cfg.memSize ∧ w = Memory.wordAt s.mem s.pc.toNat

/-- `AlignmentFaultRule`: a misaligned pc; the load of V-LS row 10, the store of row 19. -/
theorem witness_AlignmentFaultRule :
    ((loopState 2#32 10 []).status = .running ∧
      (loopState 2#32 10 []).icount < (loopState 2#32 10 []).cfg.budget ∧
      (loopState 2#32 10 []).pc.toNat % 4 ≠ 0) ∧
    (Fetches (fetched 0x0032A383#32 0xFFC#32) 0x0032A383#32 ∧
      decode true 0x0032A383#32 = .instr (.lw 7 5 3#12) ∧
      ((fetched 0x0032A383#32 0xFFC#32).effAddr 5 3#12).toNat % 4 ≠ 0) ∧
    (Fetches (fetched 0x0062A0A3#32 0x300#32) 0x0062A0A3#32 ∧
      decode true 0x0062A0A3#32 = .instr (.sw 5 6 1#12) ∧
      ((fetched 0x0062A0A3#32 0x300#32).effAddr 5 1#12).toNat % 4 ≠ 0) := by decide

/-- `OutOfBoundsFaultRule`: the pc just past memory; the load of V-LS row 7, the store of row 18. -/
theorem witness_OutOfBoundsFaultRule :
    ((loopState 0x1000#32 10 []).status = .running ∧
      (loopState 0x1000#32 10 []).icount < (loopState 0x1000#32 10 []).cfg.budget ∧
      (loopState 0x1000#32 10 []).pc.toNat % 4 = 0 ∧
      (loopState 0x1000#32 10 []).cfg.memSize < (loopState 0x1000#32 10 []).pc.toNat + 4) ∧
    (Fetches (fetched 0x0002A383#32 0x1000#32) 0x0002A383#32 ∧
      decode true 0x0002A383#32 = .instr (.lw 7 5 0#12) ∧
      ((fetched 0x0002A383#32 0x1000#32).effAddr 5 0#12).toNat % 4 = 0 ∧
      (fetched 0x0002A383#32 0x1000#32).cfg.memSize <
        ((fetched 0x0002A383#32 0x1000#32).effAddr 5 0#12).toNat + 4) ∧
    (Fetches (fetched 0x0062A223#32 0xFFC#32) 0x0062A223#32 ∧
      decode true 0x0062A223#32 = .instr (.sw 5 6 4#12) ∧
      ((fetched 0x0062A223#32 0xFFC#32).effAddr 5 4#12).toNat % 4 = 0 ∧
      (fetched 0x0062A223#32 0xFFC#32).cfg.memSize <
        ((fetched 0x0062A223#32 0xFFC#32).effAddr 5 4#12).toNat + 4) := by decide

/-- `UnimplementedWordsEndTheRun`: a word of each kind, fetched (V-DEC rows 16, 22, 11, 3, 15). -/
theorem witness_UnimplementedWordsEndTheRun :
    (Fetches (fetched 0x00000003#32 0#32) 0x00000003#32 ∧ 0x00000003#32 &&& 0x7F#32 = 0x03#32 ∧
      (0x00000003#32).extractLsb' 12 3 ≠ 0b010#3) ∧
    (Fetches (fetched 0x00000023#32 0#32) 0x00000023#32 ∧ 0x00000023#32 &&& 0x7F#32 = 0x23#32 ∧
      (0x00000023#32).extractLsb' 12 3 ≠ 0b010#3) ∧
    (Fetches (fetched 0x0FF0000F#32 0#32) 0x0FF0000F#32 ∧ 0x0FF0000F#32 &&& 0x7F#32 = 0x0F#32) ∧
    (Fetches (fetched 0x00000073#32 0#32) 0x00000073#32 ∧ 0x00000073#32 &&& 0x7F#32 = 0x73#32 ∧
      0x00000073#32 ≠ 0x00100073#32) ∧
    (Fetches (fetched 0x00004501#32 0#32) 0x00004501#32 ∧ 0x00004501#32 &&& 0x3#32 ≠ 0x3#32) := by
  decide

/-- `EndingStepsArePrecise`: a step that ends in each of the two statuses; the rows of the report are
those of `test_budget`, `test_fetch_misaligned`, `test_fetch_outside`, `test_decode_fault`,
`test_lw_faults` and `test_sw_faults`. -/
theorem witness_EndingStepsArePrecise :
    (∃ t, step (loopState 2#32 10 []) = .next t ∧ t.status = .faulted) ∧
    (∃ t, step (loopState 0#32 0 []) = .next t ∧ t.status = .budgetExceeded) :=
  ⟨⟨_, rfl, rfl⟩, ⟨_, rfl, rfl⟩⟩

/-- `EveryStepRetiresOrEnds`, `EveryRunEnds`: a running machine. `EndedMachineTakesNoStep`: one ended
in each way. -/
theorem witness_running_and_ended :
    (bare false).status = .running ∧ State.Ended { bare false with status := .halted } ∧
      State.Ended { bare false with status := .faulted } ∧
      State.Ended { bare false with status := .budgetExceeded } := by decide

/-- `ResetMeetsInvariant`: the largest memory with its last byte listed, and no memory at all. -/
theorem witness_ResetMeetsInvariant :
    (Config.Valid ⟨2 ^ 32, 0#32, true, 0⟩ ∧ Memory.Wf [(0, 1#8), (0xFFFFFFFF, 0xFF#8)] ∧
      ∀ x ∈ ([(0, 1#8), (0xFFFFFFFF, 0xFF#8)] : Memory), x.1 < 2 ^ 32) ∧
    (Config.Valid ⟨0, 2#32, false, 0⟩ ∧ Memory.Wf [] ∧ ∀ x ∈ ([] : Memory), x.1 < 0) := by decide

/-- `StepKeepsInvariant`: a state that meets the invariant and steps. -/
theorem witness_StepKeepsInvariant :
    State.Inv lastWord ∧ ∃ t, step lastWord = .next t :=
  ⟨⟨by decide, by decide, by decide, by decide, by decide, rfl⟩, _, rfl⟩

/-- `OnlyTheDestinationChanges`: ADD to `x7` and `x[5]`; a store, which has no destination. -/
theorem witness_OnlyTheDestinationChanges :
    (∃ t, exec (.add 7 5 6) (pair 1#32 2#32) = .next t) ∧ dest (.add 7 5 6) ≠ some 5 ∧
    (∃ t, exec (.sw 5 6 0#12) (pair 0#32 2#32) = .next t) ∧ dest (.sw 5 6 0#12) ≠ some 6 :=
  ⟨⟨_, rfl⟩, by decide, ⟨_, rfl⟩, by decide⟩

/-- `OnlyStoresChangeMemory`: a load; the bytes on both sides of a stored word. -/
theorem witness_OnlyStoresChangeMemory :
    ((∃ t, exec (.lw 7 5 0#12) (pair 0x200#32 2#32) = .next t) ∧ isStore (.lw 7 5 0#12) = false) ∧
    (∃ t, exec (.sw 5 6 0#12) (pair 0x200#32 2#32) = .next t) ∧
    (0x1FF < ((pair 0x200#32 2#32).effAddr 5 0#12).toNat ∧
      ((pair 0x200#32 2#32).effAddr 5 0#12).toNat + 4 ≤ 0x204) :=
  ⟨⟨⟨_, rfl⟩, rfl⟩, ⟨_, rfl⟩, by decide⟩

/-- `OnlyLoadsAndStoresFault`: EBREAK and another instruction. -/
theorem witness_OnlyLoadsAndStoresFault :
    (isLoad .ebreak = false ∧ isStore .ebreak = false) ∧
    (isLoad (.div 1 2 3) = false ∧ isStore (.div 1 2 3) = false) := by decide

/-- `TargetsAreCheckedByTheNextFetch`: V-JAL rows 6 and 7, a misaligned target and one just past
memory. -/
theorem witness_TargetsAreCheckedByTheNextFetch :
    isTransfer (.jal 1 2#21) = true ∧ (bare false).status = .running ∧
    (bare false).icount + 1 < (bare false).cfg.budget ∧
    (∃ t, exec (.jal 1 2#21) (bare false) = .next t ∧ t.pc.toNat % 4 ≠ 0) ∧
    (∃ t, exec (.jal 1 0xF00#21) (bare false) = .next t ∧ t.pc.toNat % 4 = 0 ∧
      (bare false).cfg.memSize < t.pc.toNat + 4) :=
  ⟨rfl, rfl, by decide, ⟨_, rfl, by decide⟩, ⟨_, rfl, by decide, by decide⟩⟩

/-- `ControlStateIsHidden`: two states that differ in every hidden field. -/
theorem witness_ControlStateIsHidden :
    SameToProgram (bare false)
      { bare false with
        status := .faulted, report := some ⟨.decodeFault, 0#32, none⟩, icount := 3,
        cfg := ⟨0x1000, 0#32, true, 99⟩ } :=
  ⟨fun _ => rfl, fun _ => rfl, rfl, rfl⟩

/-- `RegisterFile`, `WritesToRegisterZero`: registers other than `x0`; `AccessCheck`,
`MemoryPrimitives`, `WritesToRegisterZero`: an access that passes and one that fails each check. -/
theorem witness_registers_and_checks :
    ((1 : Reg) ≠ 0 ∧ (31 : Reg) ≠ 1) ∧ (bare false).checkAccess 0xFFC#32 = none ∧
    (bare false).checkAccess 0x1000#32 = some .outOfBoundsFault ∧
    (bare false).checkAccess 0xFFD#32 = some .alignmentFault ∧
    (pair 0x1000#32 0#32).checkAccess ((pair 0x1000#32 0#32).effAddr 5 0#12) =
      some .outOfBoundsFault ∧
    (pair 0xFFC#32 0#32).checkAccess ((pair 0xFFC#32 0#32).effAddr 5 0#12) = none := by decide

/-- `AccessCheck`, the fetch: a running machine whose pc fails the check. -/
theorem witness_AccessCheck_fetch :
    (loopState 0x1000#32 10 []).status = .running ∧
    (loopState 0x1000#32 10 []).icount < (loopState 0x1000#32 10 []).cfg.budget ∧
    (loopState 0x1000#32 10 []).checkAccess (loopState 0x1000#32 10 []).pc =
      some .outOfBoundsFault := by decide

/-- `StoredWordReadsBack`: a store to the last word of memory, and the word before it. -/
theorem witness_StoredWordReadsBack :
    (∃ t, (bare false).memWrite 0xFFC#32 0x12345678#32 = .ok t) ∧ 0xFF8#32 ≠ 0xFFC#32 :=
  ⟨⟨_, rfl⟩, by decide⟩

/-- `FetchSeesTheStore`: `sw x6, 4(x5)` with `x[5] = 0x100` over the instruction after it. -/
theorem witness_FetchSeesTheStore :
    (pair 0x100#32 0x00100073#32).status = .running ∧
    (pair 0x100#32 0x00100073#32).icount + 1 < (pair 0x100#32 0x00100073#32).cfg.budget ∧
    ((pair 0x100#32 0x00100073#32).effAddr 5 4#12).toNat % 4 = 0 ∧
    ((pair 0x100#32 0x00100073#32).effAddr 5 4#12).toNat + 4 ≤
      (pair 0x100#32 0x00100073#32).cfg.memSize ∧
    (pair 0x100#32 0x00100073#32).effAddr 5 4#12 = (pair 0x100#32 0x00100073#32).pc + 4#32 ∧
    decode (pair 0x100#32 0x00100073#32).cfg.mEnabled
      ((pair 0x100#32 0x00100073#32).readReg 6) = .instr .ebreak ∧
    ∃ t, exec (.sw 5 6 4#12) (pair 0x100#32 0x00100073#32) = .next t :=
  ⟨rfl, by decide, by decide, by decide, by decide, by decide, _, rfl⟩

/-- `DecodeOfEncode`: a branch with the farthest offset, and a multiply with the extension enabled. -/
theorem witness_DecodeOfEncode :
    ((Instr.beq 0 31 (BitVec.ofInt 13 (-4096))).wellFormed = true ∧
      (Instr.beq 0 31 (BitVec.ofInt 13 (-4096))).enabledBy false = true) ∧
    ((Instr.mul 31 0 15).wellFormed = true ∧ (Instr.mul 31 0 15).enabledBy true = true) := by decide

/-- `EncodeOfDecode` and the operand clauses of `ImmediateAssembly`: a word of each format. -/
theorem witness_EncodeOfDecode :
    decode false 0xFFF28393#32 = .instr (.addi 7 5 0xFFF#12) ∧
    decode false 0x8062A023#32 = .instr (.sw 5 6 0x800#12) ∧
    decode false 0x80000063#32 = .instr (.beq 0 0 0x1000#13) ∧
    decode false 0xFFFFF2B7#32 = .instr (.lui 5 0xFFFFF#20) ∧
    decode false 0x7FFFF2EF#32 = .instr (.jal 5 0xFFFFE#21) ∧
    decode true 0x027302B3#32 = .instr (.mul 5 6 7) := by decide

/-- `ToggleGovernsMulDivOnly`: a word on each side. -/
theorem witness_ToggleGovernsMulDivOnly :
    0x027302B3#32 &&& 0xFE00007F#32 = 0x02000033#32 ∧
      0x402081B3#32 &&& 0xFE00007F#32 ≠ 0x02000033#32 := by decide

/-! ## Pseudo-instructions (R105) -/

/-- R193: the words of its five constants. -/
theorem test_li_words :
    (Pseudo.li 10 0x12345678#32).words = [0x12345537#32, 0x67850513#32] ∧
    (Pseudo.li 10 100000#32).words = [0x00018537#32, 0x6A050513#32] ∧
    (Pseudo.li 10 0xDEADBEEF#32).words = [0xDEADC537#32, 0xEEF50513#32] ∧
    (Pseudo.li 10 0x7FFFFFFF#32).words = [0x80000537#32, 0xFFF50513#32] ∧
    (Pseudo.li 10 0x00000800#32).words = [0x00001537#32, 0x80050513#32] := by decide

/-- The short form at the ends of its range (V-RI row 4 is `addi` with -2048), and the form without
`addi` (R191, `lui x5, 0x12345`). -/
theorem test_li_forms :
    (Pseudo.li 7 0xFFFFF800#32).expand = [.addi 7 0 0x800#12] ∧
    (Pseudo.li 7 0x7FF#32).expand = [.addi 7 0 0x7FF#12] ∧
    (Pseudo.li 7 0xFFFFF7FF#32).expand.length = 2 ∧
    (Pseudo.li 5 0x12345000#32).words = [0x123452B7#32] := by decide

/-- R106 (`nop`, `ret`, `j` back by 8) and V-RI rows 9 (`seqz`) and 14 (`not`). -/
theorem test_pseudo_words :
    Pseudo.nop.words = [0x00000013#32] ∧ Pseudo.ret.words = [0x00008067#32] ∧
    (Pseudo.j (BitVec.ofInt 21 (-8))).words = [0xFF9FF06F#32] ∧
    (Pseudo.seqz 7 5).words = [0x0012B393#32] ∧ (Pseudo.not 7 5).words = [0xFFF2C393#32] := by decide

/-- `x[7]` after the expansion with `x[5] = a`. -/
def pseudoGives (p : Pseudo) (a v : Word) : Bool :=
  match execAll p.expand (pair a 0#32) with
  | .next t => t.readReg 7 == v && t.pc == 0x104#32
  | .fault _ => false
  | .refused _ => false

/-- The pc after the expansion with `x[5] = a` and `x[6] = b`. -/
def pseudoGoesTo (p : Pseudo) (a b npc : Word) : Bool :=
  match execAll p.expand (pair a b) with
  | .next t => t.pc == npc
  | .fault _ => false
  | .refused _ => false

/-- R105, by the meaning of each name: copy, negate, equal to, differs from, below, above zero. -/
theorem test_pseudo_values :
    (pseudoGives (.mv 7 5) 9#32 9#32 && pseudoGives (.neg 7 5) 1#32 0xFFFFFFFF#32 &&
      pseudoGives (.seqz 7 5) 0#32 1#32 && pseudoGives (.snez 7 5) 0x80000000#32 1#32 &&
      pseudoGives (.snez 7 5) 0#32 0#32 && pseudoGives (.sltz 7 5) 0xFFFFFFFF#32 1#32 &&
      pseudoGives (.sltz 7 5) 0#32 0#32 && pseudoGives (.sgtz 7 5) 1#32 1#32 &&
      pseudoGives (.sgtz 7 5) 0xFFFFFFFF#32 0#32) = true := by decide

/-- R105, the branches against zero, each where its neighbour in the table would differ. -/
theorem test_pseudo_zero_branches :
    (pseudoGoesTo (.beqz 5 16#13) 0#32 0#32 0x110#32 &&
      pseudoGoesTo (.bnez 5 16#13) 1#32 0#32 0x110#32 &&
      pseudoGoesTo (.blez 5 16#13) 0#32 0#32 0x110#32 &&
      pseudoGoesTo (.blez 5 16#13) 1#32 0#32 0x104#32 &&
      pseudoGoesTo (.bgez 5 16#13) 0#32 0#32 0x110#32 &&
      pseudoGoesTo (.bgez 5 16#13) 0xFFFFFFFF#32 0#32 0x104#32 &&
      pseudoGoesTo (.bltz 5 16#13) 0xFFFFFFFF#32 0#32 0x110#32 &&
      pseudoGoesTo (.bltz 5 16#13) 1#32 0#32 0x104#32 &&
      pseudoGoesTo (.bgtz 5 16#13) 1#32 0#32 0x110#32 &&
      pseudoGoesTo (.bgtz 5 16#13) 0#32 0#32 0x104#32) = true := by decide

/-- R105, the branches with swapped operands, with 1 and the word of -1. -/
theorem test_pseudo_swapped_branches :
    (pseudoGoesTo (.bgt 5 6 16#13) 1#32 0xFFFFFFFF#32 0x110#32 &&
      pseudoGoesTo (.ble 5 6 16#13) 0xFFFFFFFF#32 1#32 0x110#32 &&
      pseudoGoesTo (.bgtu 5 6 16#13) 0xFFFFFFFF#32 1#32 0x110#32 &&
      pseudoGoesTo (.bleu 5 6 16#13) 1#32 0xFFFFFFFF#32 0x110#32) = true := by decide

/-- R105, the jumps: the target, the register linked into, and the one used for the address. -/
theorem test_pseudo_jumps :
    (Pseudo.jal 8#21).expand = [.jal 1 8#21] ∧ (Pseudo.jr 5).expand = [.jalr 0 5 0#12] ∧
    (Pseudo.jalr 5).expand = [.jalr 1 5 0#12] ∧
    pseudoGoesTo (.call 0x800#32) 0#32 0#32 0x900#32 = true ∧
    pseudoGoesTo (.tail 0xFFFFFFF0#32) 0#32 0#32 0xF0#32 = true := by decide

/-- V-DEC rows 9 (`rdcycle a0`) and 11 (`fence`). -/
theorem test_unimplemented_words :
    UnimplementedPseudo.fence.words = [0x0FF0000F#32] ∧
    (UnimplementedPseudo.rdcycle 10).words = [0xC0002573#32] := by decide

/-- `PseudoInstructionsExpand`: expansions of well-formed instructions, of one word and of two, a
branch at the end of its range among them. -/
theorem witness_PseudoInstructionsExpand :
    (∀ i ∈ (Pseudo.beqz 5 (BitVec.ofInt 13 (-4096))).expand, i.wellFormed = true) ∧
    (∀ i ∈ (Pseudo.call 0xFFFFFFFF#32).expand, i.wellFormed = true) := by decide

end Sys2Proof.Tests
end

section
/-!
PROOFS. `MEM_INIT` as an image: the image that holds given bytes is built by writing them in turn
into the memory with nothing listed, so the memory's laws say what it holds and that it is canonical.
-/

namespace Sys2Proof.Machine

/-- The image of the bytes `f` at the addresses below `n` (R9, R39): each written by the model's own
`Memory.setByte`, which lists no `unlistedByte`. -/
def Memory.ofBytes (f : Nat → Byte) : Nat → Memory
  | 0 => []
  | n + 1 => Memory.setByte (Memory.ofBytes f n) n (f n)

theorem Memory.wf_ofBytes (f : Nat → Byte) (n : Nat) : Memory.Wf (Memory.ofBytes f n) := by
  induction n with
  | zero => exact Memory.wf_nil
  | succ n ih => exact Memory.wf_setByte n (f n) ih

theorem Memory.lt_of_mem_ofBytes {f : Nat → Byte} {n : Nat} {c : Host.Cell}
    (h : c ∈ Memory.ofBytes f n) : c.1 < n := by
  induction n with
  | zero => cases h
  | succ n ih =>
    rcases Memory.mem_setByte h with hc | hc
    · omega
    · exact Nat.lt_succ_of_lt (ih hc)

theorem Memory.byteAt_ofBytes {f : Nat → Byte} {n a : Nat} (h : a < n) :
    Memory.byteAt (Memory.ofBytes f n) a = f a := by
  induction n with
  | zero => cases h
  | succ n ih =>
    rw [Memory.ofBytes, Memory.byteAt_setByte]
    split
    · next hlast => rw [hlast]
    · next hne => exact ih (by omega)

/-- Settles O42: `Memory.ofBytes` is the image. -/
theorem everyMemInitIsAnImage : Obligations.EveryMemInitIsAnImage := fun n f =>
  ⟨Memory.ofBytes f n, Memory.wf_ofBytes f n, fun _ => Memory.lt_of_mem_ofBytes,
    fun _ => Memory.byteAt_ofBytes⟩

end Sys2Proof.Machine
end

section
/-!
PROOFS. The machine state (spec/10_state.md): what a register, a byte of memory and the control
fields are after an instruction, what a program can see of them, and the invariant of every step.
-/

namespace Sys2Proof.Machine

/-! ## After reset (R27, R32, R43) -/

/-- Every register reads 0 after construction (R27). -/
@[simp] theorem State.readReg_resetWith (c : Config) (image : Memory) (r : Reg) :
    (State.resetWith c image).readReg r = 0#32 := by
  by_cases hr : r = 0
  · rw [hr, State.readReg_zero]
  · rw [State.readReg_of_ne _ hr]
    simp [State.resetWith]

/-- Settles O40: `State.resetWith` sets both. -/
theorem resetRegistersAndPc : Obligations.ResetRegistersAndPc := fun c image =>
  ⟨State.readReg_resetWith c image, rfl⟩

/-- Settles O41: each field as `State.resetWith` sets it. -/
theorem resetMemoryAndControl : Obligations.ResetMemoryAndControl := fun _ _ =>
  ⟨fun _ => rfl, rfl, rfl, rfl, rfl⟩

/-! ## The register file (R22, R23) -/

/-- A register other than `x[0]` reads the word just written to it (R22). -/
theorem State.readReg_writeReg_same (s : State) {r : Reg} (v : Word) (hr : r ≠ 0) :
    (s.writeReg r v).readReg r = v := by
  rw [State.readReg_writeReg, if_pos ⟨rfl, hr⟩]

/-- A register write leaves every other register as it was (R25). -/
theorem State.readReg_writeReg_of_ne (s : State) {rd r : Reg} (v : Word) (h : r ≠ rd) :
    (s.writeReg rd v).readReg r = s.readReg r := by
  rw [State.readReg_writeReg, if_neg fun hr => h hr.1]

/-- Settles O48, by the laws of a register write and the zeros of the reset. -/
theorem registerFile : Obligations.RegisterFile :=
  ⟨fun s => ⟨s.readReg_zero, fun _ v => s.readReg_writeReg_same v,
    fun _ _ v => s.readReg_writeReg_of_ne v⟩, State.readReg_resetWith⟩

/-- The target of JAL is the sum modulo 2^32 (R181). -/
theorem State.jalTarget_eq (s : State) (off : BitVec 21) :
    s.jalTarget off = BitVec.ofInt 32 ((s.pc.toNat : Int) + off.toInt) := by
  rw [BitVec.ofInt_add, BitVec.ofInt_natCast, BitVec.ofNat_toNat, BitVec.setWidth_eq]
  rfl

/-- LW whose access passes writes the word read and retires (R161). -/
theorem exec_lw_of_checkAccess_none {s : State} {rd rs1 : Reg} {imm : BitVec 12}
    (ha : s.checkAccess (s.effAddr rs1 imm) = none) :
    exec (.lw rd rs1 imm) s =
      .next (s.writeRetire rd (Memory.wordAt s.mem (s.effAddr rs1 imm).toNat)) := by
  simp only [exec, execLw, State.memRead, ha]

/-- LW whose access fails ends the run, whatever its destination (R160). -/
theorem exec_lw_of_checkAccess_some {s : State} {rd rs1 : Reg} {imm : BitVec 12} {c : Condition}
    (ha : s.checkAccess (s.effAddr rs1 imm) = some c) :
    exec (.lw rd rs1 imm) s = .next (s.endRun c (some (encode (.lw rd rs1 imm)))) := by
  simp only [exec, execLw, State.memRead, ha]

/-- Settles O49: with `rd = x0` the register write is the identity, so the retired state is the one
of an instruction that writes nothing. -/
theorem writesToRegisterZero : Obligations.WritesToRegisterZero := by
  refine ⟨fun s => ⟨s.writeReg_zero, fun _ v => s.readReg_writeReg_same v,
    fun _ _ => State.readReg_zero _⟩, fun s off => ?jal, fun s rs1 imm => ?jalr,
    fun s rs1 imm ha => ?load, fun s rs1 imm c ha => ?fault⟩
  case jal => exact ⟨_, rfl, s.jalTarget_eq off ▸ RetiresTo.ofRetireTo s _⟩
  case jalr => exact ⟨_, rfl, RetiresTo.ofRetireTo s _⟩
  case load => exact ⟨_, exec_lw_of_checkAccess_none ha, RetiresTo.ofRetireTo s _⟩
  case fault => exact ⟨_, exec_lw_of_checkAccess_some ha, StopsWith.ofEndRun s c _⟩

/-! ## What an executed instruction leaves unchanged (R25, R39) -/

/-- Settles O43, by the shape of the next state: only the first writes a register. -/
theorem onlyTheDestinationChanges : Obligations.OnlyTheDestinationChanges := by
  intro i s t r h hr
  cases exec_inv h with
  | wrote rd v npc hd =>
    have hne : r ≠ rd := fun e => hr (e ▸ hd)
    rw [State.readReg_retireTo, State.readReg_writeReg_of_ne s v hne]
  | moved => rfl
  | stored => rfl
  | faulted => rfl
  | halted => rfl

/-- Memory after an executed instruction: the same, or SW's word stored at its address (R39). -/
theorem Executed.mem_cases {i : Instr} {s t : State} (h : Executed i s t) :
    t.mem = s.mem ∨ ∃ rs1 rs2 imm, i = .sw rs1 rs2 imm ∧
      t.mem = Memory.setWord s.mem (s.effAddr rs1 imm).toNat (s.readReg rs2) := by
  cases h with
  | wrote rd v npc => exact .inl (s.writeReg_mem rd v)
  | moved => exact .inl rfl
  | stored rs1 rs2 imm hi => exact .inr ⟨rs1, rs2, imm, hi, rfl⟩
  | faulted => exact .inl rfl
  | halted => exact .inl rfl

/-- Settles O44: a word stored changes its own four bytes. -/
theorem onlyStoresChangeMemory : Obligations.OnlyStoresChangeMemory := by
  constructor
  · intro i s t a h hs
    rcases (exec_inv h).mem_cases with hm | ⟨rs1, rs2, imm, rfl, -⟩
    · rw [hm]
    · cases hs
  · intro s t rs1 rs2 imm a h ha
    rcases (exec_inv h).mem_cases with hm | ⟨_, _, _, ⟨rfl, rfl, rfl⟩, hm⟩
    · rw [hm]
    · rw [hm, Memory.byteAt_setWord, if_pos ha]

/-! ## What a program can see (R34, R36, R38)

Every operation the execute stage is made of keeps `SameToProgram`, and every value it computes is
the same in two states so related. -/

section SameToProgram
variable {s s' : State} (h : SameToProgram s s')
include h

theorem SameToProgram.writeReg (rd : Reg) (v : Word) :
    SameToProgram (s.writeReg rd v) (s'.writeReg rd v) where
  reg r := by rw [State.readReg_writeReg, State.readReg_writeReg, h.reg]
  mem a := by simpa using h.mem a
  pc := by simpa using h.pc
  memSize := by simpa using h.memSize

theorem SameToProgram.retireTo {npc npc' : Word} (hn : npc = npc') :
    SameToProgram (s.retireTo npc) (s'.retireTo npc') :=
  ⟨h.reg, h.mem, hn, h.memSize⟩

theorem SameToProgram.retireNext : SameToProgram s.retireNext s'.retireNext :=
  h.retireTo (by rw [h.pc])

theorem SameToProgram.writeRetireTo (rd : Reg) {v v' npc npc' : Word} (hv : v = v')
    (hn : npc = npc') :
    SameToProgram ((s.writeReg rd v).retireTo npc) ((s'.writeReg rd v').retireTo npc') :=
  hv ▸ (h.writeReg rd v).retireTo hn

theorem SameToProgram.writeRetire (rd : Reg) {v v' : Word} (hv : v = v') :
    SameToProgram (s.writeRetire rd v) (s'.writeRetire rd v') :=
  hv ▸ (h.writeReg rd v).retireNext

theorem SameToProgram.branch {taken taken' : Bool} (ht : taken = taken') (off : BitVec 13) :
    SameToProgram (s.branch taken off) (s'.branch taken' off) := by
  subst ht
  cases taken
  · exact h.retireNext
  · exact h.retireTo (congrArg (· + immB off) h.pc)

theorem SameToProgram.endRun (c : Condition) (w : Option Word) :
    SameToProgram (s.endRun c w) (s'.endRun c w) :=
  ⟨h.reg, h.mem, h.pc, h.memSize⟩

theorem SameToProgram.setWord (a : Nat) (v : Word) :
    SameToProgram { s with mem := Memory.setWord s.mem a v }
      { s' with mem := Memory.setWord s'.mem a v } where
  reg := h.reg
  mem b := by simp only [Memory.byteAt_setWord, h.mem]
  pc := h.pc
  memSize := h.memSize

theorem SameToProgram.effAddr (rs1 : Reg) (imm : BitVec 12) :
    s.effAddr rs1 imm = s'.effAddr rs1 imm := by
  rw [State.effAddr, State.effAddr, h.reg]

theorem SameToProgram.memRead (a : Word) : s.memRead a = s'.memRead a := by
  have hw : Memory.wordAt s.mem a.toNat = Memory.wordAt s'.mem a.toNat :=
    Memory.wordAt_congr fun b _ _ => h.mem b
  rw [State.memRead, State.memRead, State.checkAccess_congr h.memSize, hw]

/-- The loads: both read the same word or fail alike. -/
theorem SameToProgram.exec_lw (rd rs1 : Reg) (imm : BitVec 12) :
    ∃ t t', exec (.lw rd rs1 imm) s = .next t ∧ exec (.lw rd rs1 imm) s' = .next t' ∧
      SameToProgram t t' := by
  simp only [exec, execLw, ← h.effAddr, ← h.memRead]
  cases s.memRead (s.effAddr rs1 imm) with
  | error c => exact ⟨_, _, rfl, rfl, h.endRun c _⟩
  | ok v => exact ⟨_, _, rfl, rfl, h.writeRetire rd rfl⟩

/-- The stores: both write the same word at the same address or fail alike. -/
theorem SameToProgram.exec_sw (rs1 rs2 : Reg) (imm : BitVec 12) :
    ∃ t t', exec (.sw rs1 rs2 imm) s = .next t ∧ exec (.sw rs1 rs2 imm) s' = .next t' ∧
      SameToProgram t t' := by
  simp only [exec, execSw, State.memWrite, ← h.effAddr, ← h.reg,
    ← State.checkAccess_congr h.memSize]
  cases s.checkAccess (s.effAddr rs1 imm) with
  | some c => exact ⟨_, _, rfl, rfl, h.endRun c _⟩
  | none => exact ⟨_, _, rfl, rfl, (h.setWord _ _).retireNext⟩

end SameToProgram

/-- Settles O47, by the instruction: each is built from operations that keep `SameToProgram`, at
values read from the registers, the memory and the pc alone. -/
theorem controlStateIsHidden : Obligations.ControlStateIsHidden := by
  intro i s s' h
  cases i
  case lw rd rs1 imm => exact h.exec_lw rd rs1 imm
  case sw rs1 rs2 imm => exact h.exec_sw rs1 rs2 imm
  case ebreak => exact ⟨_, _, rfl, rfl, h.reg, h.mem, h.pc, h.memSize⟩
  case jal rd off =>
    exact ⟨_, _, rfl, rfl, h.writeRetireTo rd (congrArg (· + 4#32) h.pc)
      (congrArg (· + immJ off) h.pc)⟩
  case jalr rd rs1 imm =>
    exact ⟨_, _, rfl, rfl, h.writeRetireTo rd (congrArg (· + 4#32) h.pc)
      (congrArg (· &&& 0xFFFFFFFE#32) (h.effAddr rs1 imm))⟩
  case beq | bne | blt | bge | bltu | bgeu =>
    exact ⟨_, _, rfl, rfl, h.branch (by simp only [h.reg]) _⟩
  all_goals exact ⟨_, _, rfl, rfl, h.writeRetire _ (by simp only [h.reg, h.pc])⟩

/-! ## The invariant (R23, R35, R36, R39, R231, R255) -/

/-- The agreement of report and status reads the status, the report and the pc. -/
theorem State.reportAgrees_congr {s t : State} (hs : t.status = s.status)
    (hr : t.report = s.report) (hp : t.pc = s.pc) : t.ReportAgrees ↔ s.ReportAgrees := by
  unfold State.ReportAgrees
  rw [hs, hr, hp]

/-- A running machine's report agrees exactly when there is none (R35). -/
theorem State.reportAgrees_of_running {s : State} (hs : s.status = .running) :
    s.ReportAgrees ↔ s.report = none := by
  unfold State.ReportAgrees
  rw [hs]

/-- A halted machine's report agrees exactly when there is none (R35). -/
theorem State.reportAgrees_of_halted {s : State} (hs : s.status = .halted) :
    s.ReportAgrees ↔ s.report = none := by
  unfold State.ReportAgrees
  rw [hs]

/-- The report a condition writes agrees with the status it writes, if BudgetExceeded comes without a
word (R255). -/
theorem State.reportAgrees_endRun (s : State) (c : Condition) (w : Option Word)
    (hw : c = .budgetExceeded → w = none) : (s.endRun c w).ReportAgrees := by
  unfold State.ReportAgrees
  cases c with
  | decodeFault => exact ⟨_, w, rfl, by simp⟩
  | alignmentFault => exact ⟨_, w, rfl, by simp⟩
  | outOfBoundsFault => exact ⟨_, w, rfl, by simp⟩
  | budgetExceeded => rw [hw rfl]; rfl

section Inv
variable {s : State} (h : s.Inv)
include h

theorem State.Inv.writeReg (rd : Reg) (v : Word) : (s.writeReg rd v).Inv where
  cfg := by simpa using h.cfg
  mem := by simpa using h.mem
  inside := by simpa using h.inside
  zero := (s.writeReg_slot_zero rd v).trans h.zero
  count := by simpa using h.count
  report := (State.reportAgrees_congr (by simp) (by simp) (by simp)).2 h.report

/-- A word stored where the access check passes lies inside memory (R52, R54). -/
theorem State.Inv.setWord {a : Word} (v : Word) (ha : s.checkAccess a = none) :
    State.Inv { s with mem := Memory.setWord s.mem a.toNat v } where
  cfg := h.cfg
  mem := Memory.wf_setWord _ _ h.mem
  inside c hc := by
    obtain ⟨-, hsize⟩ := State.checkAccess_eq_none.1 ha
    rcases Memory.mem_setWord hc with ⟨-, hlt⟩ | hold
    · exact Nat.lt_of_lt_of_le hlt hsize
    · exact h.inside c hold
  zero := h.zero
  count := h.count
  report := h.report

/-- A condition ends the run in the invariant, if BudgetExceeded comes without a word. -/
theorem State.Inv.endRun (c : Condition) (w : Option Word) (hw : c = .budgetExceeded → w = none) :
    (s.endRun c w).Inv :=
  ⟨h.cfg, h.mem, h.inside, h.zero, h.count, s.reportAgrees_endRun c w hw⟩

/-- An instruction retires from a running machine whose budget allows one more (R231, R235). -/
theorem State.Inv.retireTo (npc : Word) (hr : s.status = .running)
    (hb : s.icount < s.cfg.budget) : (s.retireTo npc).Inv where
  cfg := h.cfg
  mem := h.mem
  inside := h.inside
  zero := h.zero
  count := hb
  report :=
    have hreport : s.report = none := (State.reportAgrees_of_running hr).1 h.report
    (State.reportAgrees_of_running (s := s.retireTo npc) hr).2 hreport

/-- EBREAK retires within the budget and leaves no report (R220, R231). -/
theorem State.Inv.halt (hr : s.status = .running) (hb : s.icount < s.cfg.budget) : s.halt.Inv where
  cfg := h.cfg
  mem := h.mem
  inside := h.inside
  zero := h.zero
  count := hb
  report :=
    have hreport : s.report = none := (State.reportAgrees_of_running hr).1 h.report
    (State.reportAgrees_of_halted (s := s.halt) rfl).2 hreport

/-- The execute stage keeps the invariant of a running machine whose budget allows one more. -/
theorem State.Inv.executed {i : Instr} {t : State} (hr : s.status = .running)
    (hb : s.icount < s.cfg.budget) (hx : Executed i s t) : t.Inv := by
  cases hx with
  | wrote rd v npc => exact (h.writeReg rd v).retireTo npc (by simpa using hr) (by simpa using hb)
  | moved npc => exact h.retireTo npc hr hb
  | stored rs1 rs2 imm hi ha => exact (h.setWord _ ha).retireTo _ hr hb
  | faulted c rd rs1 rs2 imm hi ha =>
    exact h.endRun c _ fun hc => absurd hc (State.checkAccess_ne_budget ha)
  | halted => exact h.halt hr hb

end Inv

/-- The fetch stage finds BudgetExceeded only where it has fetched no word (R231, R255). -/
theorem State.fetchNext_budget_word {s : State} {w : Option Word}
    (hf : s.fetchNext = .stops .budgetExceeded w) : w = none := by
  rcases s.fetchNext_cases with ⟨-, h⟩ | ⟨-, c, -, h⟩ | ⟨-, -, -, h⟩ | ⟨-, -, i, -, h⟩
  · cases h.symm.trans hf; rfl
  · cases h.symm.trans hf; rfl
  · cases h.symm.trans hf
  · cases h.symm.trans hf

/-- An instruction is found only while the budget allows one more (R231). -/
theorem State.lt_budget_of_fetchNext {s : State} {i : Instr} (hf : s.fetchNext = .instr i) :
    s.icount < s.cfg.budget := by
  rcases s.fetchNext_cases with ⟨-, h⟩ | ⟨hb, -⟩ | ⟨hb, -⟩ | ⟨hb, -⟩
  · cases h.symm.trans hf
  · exact hb
  · exact hb
  · exact hb

/-- Settles O38: the fetch stops the run, or the instruction it found is executed. -/
theorem stepKeepsInvariant : Obligations.StepKeepsInvariant := by
  intro s t h hstep
  obtain ⟨hr, ⟨c, w, hf, rfl⟩ | ⟨i, hf, hx⟩⟩ := step_inv hstep
  · refine h.endRun c w ?_
    rintro rfl
    exact State.fetchNext_budget_word hf
  · exact h.executed hr (State.lt_budget_of_fetchNext hf) (exec_inv hx)

end Sys2Proof.Machine
end

section
/-!
PROOFS. The memory (spec/20_memory.md): what `MemRead`, `MemWrite`, LW, SW and the fetch do in each
outcome of the access check, and what a word read gives after a word written.
-/

namespace Sys2Proof.Machine

/-! ## The primitives and their callers, by the outcome of the access check (R52 to R54) -/

section Access

variable {s : State} {a : Word} {c : Condition}

theorem State.memRead_of_checkAccess_none (ha : s.checkAccess a = none) :
    s.memRead a = .ok (Memory.wordAt s.mem a.toNat) := by
  simp only [State.memRead, ha]

theorem State.memRead_of_checkAccess_some (ha : s.checkAccess a = some c) :
    s.memRead a = .error c := by
  simp only [State.memRead, ha]

theorem State.memWrite_of_checkAccess_none (v : Word) (ha : s.checkAccess a = none) :
    s.memWrite a v = .ok { s with mem := Memory.setWord s.mem a.toNat v } := by
  simp only [State.memWrite, ha]

theorem State.memWrite_of_checkAccess_some (v : Word) (ha : s.checkAccess a = some c) :
    s.memWrite a v = .error c := by
  simp only [State.memWrite, ha]

/-- A write that answered a state passed the check, and the state is the one with the word stored. -/
theorem State.memWrite_ok_inv {t : State} {v : Word} (h : s.memWrite a v = .ok t) :
    s.checkAccess a = none ∧ t = { s with mem := Memory.setWord s.mem a.toNat v } := by
  rcases s.memWrite_cases a v with ⟨ha, hw⟩ | ⟨c, -, hw⟩
  · cases h.symm.trans hw; exact ⟨ha, rfl⟩
  · cases h.symm.trans hw

/-- SW whose access passes stores the word and retires (R162). -/
theorem exec_sw_of_checkAccess_none {rs1 rs2 : Reg} {imm : BitVec 12}
    (ha : s.checkAccess (s.effAddr rs1 imm) = none) :
    exec (.sw rs1 rs2 imm) s = .next (State.retireNext
      { s with mem := Memory.setWord s.mem (s.effAddr rs1 imm).toNat (s.readReg rs2) }) := by
  simp only [exec, execSw, State.memWrite_of_checkAccess_none _ ha]

/-- SW whose access fails ends the run (R160). -/
theorem exec_sw_of_checkAccess_some {rs1 rs2 : Reg} {imm : BitVec 12}
    (ha : s.checkAccess (s.effAddr rs1 imm) = some c) :
    exec (.sw rs1 rs2 imm) s = .next (s.endRun c (some (encode (.sw rs1 rs2 imm)))) := by
  simp only [exec, execSw, State.memWrite_of_checkAccess_some _ ha]

/-- A fetch whose access fails stops the run with no word (R232, R255). -/
theorem State.fetchNext_of_checkAccess_some (hb : s.icount < s.cfg.budget)
    (ha : s.checkAccess s.pc = some c) : s.fetchNext = .stops c none := by
  simp only [State.fetchNext, if_neg (Nat.not_le.2 hb), State.memRead_of_checkAccess_some ha]

/-- A fetch whose access passes finds what the word at the pc decodes to (R232, R233). -/
theorem State.fetchNext_of_checkAccess_none (hb : s.icount < s.cfg.budget)
    (ha : s.checkAccess s.pc = none) :
    s.fetchNext = s.decodeFetched (Memory.wordAt s.mem s.pc.toNat) := by
  simp only [State.fetchNext, if_neg (Nat.not_le.2 hb), State.memRead_of_checkAccess_none ha]

theorem State.decodeFetched_of_instr {w : Word} {i : Instr}
    (hd : decode s.cfg.mEnabled w = .instr i) : s.decodeFetched w = .instr i := by
  simp only [State.decodeFetched, hd]

end Access

/-- Settles O50: the check by its two laws, then each caller's rule for a failed check. -/
theorem accessCheck : Obligations.AccessCheck := by
  refine ⟨fun s addr => ⟨fun h => ?align, fun h hb => ?bounds, fun h hb => ?pass⟩,
    fun s rd rs1 imm c ha => ?load, fun s rs1 rs2 imm c ha => ?store, fun s c hr hb ha => ?fetch⟩
  case align => exact State.checkAccess_eq_some.2 (.inl ⟨h, rfl⟩)
  case bounds => exact State.checkAccess_eq_some.2 (.inr ⟨h, hb, rfl⟩)
  case pass => exact State.checkAccess_eq_none.2 ⟨h, hb⟩
  case load => exact ⟨_, exec_lw_of_checkAccess_some ha, StopsWith.ofEndRun s c _⟩
  case store => exact ⟨_, exec_sw_of_checkAccess_some ha, StopsWith.ofEndRun s c _⟩
  case fetch =>
    have hf : s.fetchNext = .stops c none := State.fetchNext_of_checkAccess_some hb ha
    exact ⟨_, step_of_stops hr hf, StopsWith.ofEndRun s c _⟩

/-! ## The word read and the bytes written (R53, R54, R55) -/

/-- The four bytes of a word, as digits to the base 2^8, least first (R55). -/
theorem wordOfBytes_toNat (b0 b1 b2 b3 : Byte) :
    (wordOfBytes b0 b1 b2 b3).toNat =
      b0.toNat + 2 ^ 8 * b1.toNat + 2 ^ 16 * b2.toNat + 2 ^ 24 * b3.toNat := by
  have h0 := b0.isLt
  have h1 := b1.isLt
  have h2 := b2.isLt
  simp only [wordOfBytes, BitVec.toNat_append]
  rw [← Nat.shiftLeft_add_eq_or_of_lt h2, ← Nat.shiftLeft_add_eq_or_of_lt h1,
    ← Nat.shiftLeft_add_eq_or_of_lt h0]
  simp only [Nat.shiftLeft_eq]
  omega

/-- The word read, as the sum of its bytes by place (R53). -/
theorem Memory.wordAt_eq_ofNat (m : Memory) (a : Nat) :
    Memory.wordAt m a = BitVec.ofNat 32 ((Memory.byteAt m a).toNat +
      2 ^ 8 * (Memory.byteAt m (a + 1)).toNat + 2 ^ 16 * (Memory.byteAt m (a + 2)).toNat +
      2 ^ 24 * (Memory.byteAt m (a + 3)).toNat) := by
  rw [← wordOfBytes_toNat, BitVec.ofNat_toNat, BitVec.setWidth_eq]
  rfl

/-- Settles O51: the bytes and the frame of a write are those of an SW to the same address. -/
theorem memoryPrimitives : Obligations.MemoryPrimitives := by
  refine ⟨fun s addr v c ha => ⟨State.memRead_of_checkAccess_some ha,
    State.memWrite_of_checkAccess_some v ha⟩, fun s addr ha => ?read, fun s addr v ha => ?write⟩
  case read => rw [State.memRead_of_checkAccess_none ha, Memory.wordAt_eq_ofNat]
  case write =>
    have hs := RetiresStoring.ofSetWord s addr v
    exact ⟨_, State.memWrite_of_checkAccess_none v ha, hs.byte0, hs.byte1, hs.byte2, hs.byte3,
      hs.mem, rfl, rfl, rfl, rfl, rfl, rfl⟩

/-! ## Read after write of a word (R61, R65) -/

/-- A word stored leaves every word that shares no byte with it as it was (R54). -/
theorem Memory.wordAt_setWord_of_disjoint (m : Memory) {a b : Nat} (v : Word)
    (h : b + 4 ≤ a ∨ a + 4 ≤ b) :
    Memory.wordAt (Memory.setWord m a v) b = Memory.wordAt m b :=
  Memory.wordAt_congr fun k _ _ => by rw [Memory.byteAt_setWord, if_pos (by omega)]

/-- Different addresses that pass the check name words that share no byte (R52). -/
theorem State.disjoint_of_checkAccess_none {s : State} {a b : Word}
    (ha : s.checkAccess a = none) (hb : s.checkAccess b = none) (hne : b ≠ a) :
    b.toNat + 4 ≤ a.toNat ∨ a.toNat + 4 ≤ b.toNat := by
  obtain ⟨ha4, -⟩ := State.checkAccess_eq_none.1 ha
  obtain ⟨hb4, -⟩ := State.checkAccess_eq_none.1 hb
  have hdiff : b.toNat ≠ a.toNat := fun e => hne (BitVec.eq_of_toNat_eq e)
  omega

/-- A memory update leaves the check as it was. -/
@[simp] theorem State.checkAccess_withMem (s : State) (m : Memory) (a : Word) :
    ({ s with mem := m } : State).checkAccess a = s.checkAccess a := rfl

/-- Settles O52: the check is the same before and after the write, and two words that both pass it
are the same or share no byte. -/
theorem storedWordReadsBack : Obligations.StoredWordReadsBack := by
  intro s t a b v h
  obtain ⟨ha, rfl⟩ := State.memWrite_ok_inv h
  constructor
  · rw [State.memRead_of_checkAccess_none (by rwa [State.checkAccess_withMem]),
      Memory.wordAt_setWord]
  · intro hne
    rcases s.memRead_cases b with ⟨hb, hread⟩ | ⟨c, hb, hread⟩
    · rw [hread, State.memRead_of_checkAccess_none (by rwa [State.checkAccess_withMem]),
        Memory.wordAt_setWord_of_disjoint s.mem v (State.disjoint_of_checkAccess_none ha hb hne)]
    · rw [hread, State.memRead_of_checkAccess_some (by rwa [State.checkAccess_withMem])]

/-- Settles O53: after the SW the pc is the address stored to, so the fetch reads the stored word. -/
theorem fetchSeesTheStore : Obligations.FetchSeesTheStore := by
  intro s t rs1 rs2 imm i hr hb halign hsize hpc hd hexec
  have ha : s.checkAccess (s.effAddr rs1 imm) = none :=
    State.checkAccess_eq_none.2 ⟨halign, hsize⟩
  cases hexec.symm.trans (exec_sw_of_checkAccess_none ha)
  rw [hpc] at ha ⊢
  refine step_of_instr hr ?_
  rw [State.fetchNext_of_checkAccess_none hb ha]
  refine State.decodeFetched_of_instr ?_
  simpa using hd

end Sys2Proof.Machine
end

section
/-!
PROOFS. The formats and the fields (spec/30_encoding.md R81 to R93): the fields of an encoded word
are the operands it was made of, and a word is the encoding of its own fields.
-/

namespace Sys2Proof

open BitVec (extractLsb'_append_eq_of_le extractLsb'_append_eq_right
  extractLsb'_append_extractLsb'_eq_extractLsb' extractLsb'_eq_self)

/-! ## The fields of an encoded word

Each field is one piece of the format's concatenation, and each immediate is put together again from
the pieces the format cut it into. The library's lemmas speak of widths that are sums, and the
words' widths are literals: `simp` needs `-index` to match the two. -/

@[simp] theorem encodeR_fields (f7 : BitVec 7) (rs2 rs1 : Reg) (f3 : BitVec 3) (rd : Reg)
    (op : BitVec 7) :
    opcodeOf (encodeR f7 rs2 rs1 f3 rd op) = op ∧ rdOf (encodeR f7 rs2 rs1 f3 rd op) = rd ∧
    funct3Of (encodeR f7 rs2 rs1 f3 rd op) = f3 ∧ rs1Of (encodeR f7 rs2 rs1 f3 rd op) = rs1 ∧
    rs2Of (encodeR f7 rs2 rs1 f3 rd op) = rs2 ∧ funct7Of (encodeR f7 rs2 rs1 f3 rd op) = f7 := by
  simp -index only [opcodeOf, rdOf, funct3Of, rs1Of, rs2Of, funct7Of, encodeR,
    extractLsb'_append_eq_of_le, extractLsb'_append_eq_right, extractLsb'_eq_self,
    Nat.reduceLeDiff, Nat.reduceSub, regOf_regBits, and_self]

@[simp] theorem encodeShift_fields (f7 : BitVec 7) (shamt : BitVec 5) (rs1 : Reg) (f3 : BitVec 3)
    (rd : Reg) (op : BitVec 7) :
    opcodeOf (encodeShift f7 shamt rs1 f3 rd op) = op ∧
    rdOf (encodeShift f7 shamt rs1 f3 rd op) = rd ∧
    funct3Of (encodeShift f7 shamt rs1 f3 rd op) = f3 ∧
    rs1Of (encodeShift f7 shamt rs1 f3 rd op) = rs1 ∧
    shamtOf (encodeShift f7 shamt rs1 f3 rd op) = shamt ∧
    funct7Of (encodeShift f7 shamt rs1 f3 rd op) = f7 := by
  simp -index only [opcodeOf, rdOf, funct3Of, rs1Of, shamtOf, funct7Of, encodeShift,
    extractLsb'_append_eq_of_le, extractLsb'_append_eq_right, extractLsb'_eq_self,
    Nat.reduceLeDiff, Nat.reduceSub, regOf_regBits, and_self]

@[simp] theorem encodeI_fields (imm : BitVec 12) (rs1 : Reg) (f3 : BitVec 3) (rd : Reg)
    (op : BitVec 7) :
    opcodeOf (encodeI imm rs1 f3 rd op) = op ∧ rdOf (encodeI imm rs1 f3 rd op) = rd ∧
    funct3Of (encodeI imm rs1 f3 rd op) = f3 ∧ rs1Of (encodeI imm rs1 f3 rd op) = rs1 ∧
    immIOf (encodeI imm rs1 f3 rd op) = imm := by
  simp -index only [opcodeOf, rdOf, funct3Of, rs1Of, immIOf, encodeI,
    extractLsb'_append_eq_of_le, extractLsb'_append_eq_right, extractLsb'_eq_self,
    Nat.reduceLeDiff, Nat.reduceSub, regOf_regBits, and_self]

@[simp] theorem encodeS_fields (imm : BitVec 12) (rs2 rs1 : Reg) (f3 : BitVec 3) (op : BitVec 7) :
    opcodeOf (encodeS imm rs2 rs1 f3 op) = op ∧ funct3Of (encodeS imm rs2 rs1 f3 op) = f3 ∧
    rs1Of (encodeS imm rs2 rs1 f3 op) = rs1 ∧ rs2Of (encodeS imm rs2 rs1 f3 op) = rs2 ∧
    immSOf (encodeS imm rs2 rs1 f3 op) = imm := by
  simp -index only [opcodeOf, funct3Of, rs1Of, rs2Of, immSOf, encodeS,
    extractLsb'_append_eq_of_le, extractLsb'_append_eq_right,
    extractLsb'_append_extractLsb'_eq_extractLsb', extractLsb'_eq_self,
    Nat.reduceLeDiff, Nat.reduceSub, Nat.reduceAdd, regOf_regBits, and_self]

/-- Bit 0 of an even offset, the one bit the formats B and J leave out (R90, R92). -/
theorem extractLsb'_zero_of_evenOffset {n : Nat} {off : BitVec n} (h : evenOffset off = true) :
    off.extractLsb' 0 1 = 0#1 := by
  apply BitVec.eq_of_getLsbD_eq
  intro i hi
  obtain rfl : i = 0 := by omega
  simpa [evenOffset] using h

@[simp] theorem encodeB_fields (off : BitVec 13) (rs2 rs1 : Reg) (f3 : BitVec 3) (op : BitVec 7) :
    opcodeOf (encodeB off rs2 rs1 f3 op) = op ∧ funct3Of (encodeB off rs2 rs1 f3 op) = f3 ∧
    rs1Of (encodeB off rs2 rs1 f3 op) = rs1 ∧ rs2Of (encodeB off rs2 rs1 f3 op) = rs2 := by
  simp -index only [opcodeOf, funct3Of, rs1Of, rs2Of, encodeB,
    extractLsb'_append_eq_of_le, extractLsb'_append_eq_right,
    Nat.reduceLeDiff, Nat.reduceSub, regOf_regBits, and_self]

theorem immBOf_encodeB {off : BitVec 13} (h : evenOffset off = true) (rs2 rs1 : Reg) (f3 : BitVec 3)
    (op : BitVec 7) : immBOf (encodeB off rs2 rs1 f3 op) = off := by
  simp -index only [immBOf, encodeB, ← extractLsb'_zero_of_evenOffset h,
    extractLsb'_append_eq_of_le, extractLsb'_append_eq_right,
    extractLsb'_append_extractLsb'_eq_extractLsb', extractLsb'_eq_self,
    Nat.reduceLeDiff, Nat.reduceSub, Nat.reduceAdd]

@[simp] theorem encodeU_fields (imm : BitVec 20) (rd : Reg) (op : BitVec 7) :
    opcodeOf (encodeU imm rd op) = op ∧ rdOf (encodeU imm rd op) = rd ∧
    immUOf (encodeU imm rd op) = imm := by
  simp -index only [opcodeOf, rdOf, immUOf, encodeU,
    extractLsb'_append_eq_of_le, extractLsb'_append_eq_right, extractLsb'_eq_self,
    Nat.reduceLeDiff, Nat.reduceSub, regOf_regBits, and_self]

@[simp] theorem encodeJ_fields (off : BitVec 21) (rd : Reg) (op : BitVec 7) :
    opcodeOf (encodeJ off rd op) = op ∧ rdOf (encodeJ off rd op) = rd := by
  simp -index only [opcodeOf, rdOf, encodeJ,
    extractLsb'_append_eq_of_le, extractLsb'_append_eq_right,
    Nat.reduceLeDiff, Nat.reduceSub, regOf_regBits, and_self]

theorem immJOf_encodeJ {off : BitVec 21} (h : evenOffset off = true) (rd : Reg) (op : BitVec 7) :
    immJOf (encodeJ off rd op) = off := by
  simp -index only [immJOf, encodeJ, ← extractLsb'_zero_of_evenOffset h,
    extractLsb'_append_eq_of_le, extractLsb'_append_eq_right,
    extractLsb'_append_extractLsb'_eq_extractLsb', extractLsb'_eq_self,
    Nat.reduceLeDiff, Nat.reduceSub, Nat.reduceAdd]

/-! ## A word is the encoding of its own fields

Stated for a word whose fixed fields are known, as the decoder's branches know them. -/

section OwnFields

variable {w : Word} {f7 : BitVec 7} {f3 : BitVec 3} {op : BitVec 7}

theorem encodeR_ownFields (h7 : funct7Of w = f7) (h3 : funct3Of w = f3) (ho : opcodeOf w = op) :
    encodeR f7 (rs2Of w) (rs1Of w) f3 (rdOf w) op = w := by
  subst h7 h3 ho
  simp -index only [encodeR, opcodeOf, rdOf, funct3Of, rs1Of, rs2Of, funct7Of, regBits_regOf,
    extractLsb'_append_extractLsb'_eq_extractLsb', extractLsb'_eq_self, Nat.reduceAdd]

theorem encodeShift_ownFields (h7 : funct7Of w = f7) (h3 : funct3Of w = f3)
    (ho : opcodeOf w = op) : encodeShift f7 (shamtOf w) (rs1Of w) f3 (rdOf w) op = w := by
  subst h7 h3 ho
  simp -index only [encodeShift, opcodeOf, rdOf, funct3Of, rs1Of, shamtOf, funct7Of, regBits_regOf,
    extractLsb'_append_extractLsb'_eq_extractLsb', extractLsb'_eq_self, Nat.reduceAdd]

theorem encodeI_ownFields (h3 : funct3Of w = f3) (ho : opcodeOf w = op) :
    encodeI (immIOf w) (rs1Of w) f3 (rdOf w) op = w := by
  subst h3 ho
  simp -index only [encodeI, opcodeOf, rdOf, funct3Of, rs1Of, immIOf, regBits_regOf,
    extractLsb'_append_extractLsb'_eq_extractLsb', extractLsb'_eq_self, Nat.reduceAdd]

theorem encodeS_ownFields (h3 : funct3Of w = f3) (ho : opcodeOf w = op) :
    encodeS (immSOf w) (rs2Of w) (rs1Of w) f3 op = w := by
  subst h3 ho
  simp -index only [encodeS, opcodeOf, funct3Of, rs1Of, rs2Of, immSOf, regBits_regOf,
    extractLsb'_append_eq_of_le, extractLsb'_append_eq_right,
    extractLsb'_append_extractLsb'_eq_extractLsb', extractLsb'_eq_self,
    Nat.reduceLeDiff, Nat.reduceSub, Nat.reduceAdd]

theorem encodeB_ownFields (h3 : funct3Of w = f3) (ho : opcodeOf w = op) :
    encodeB (immBOf w) (rs2Of w) (rs1Of w) f3 op = w := by
  subst h3 ho
  simp -index only [encodeB, opcodeOf, funct3Of, rs1Of, rs2Of, immBOf, regBits_regOf,
    extractLsb'_append_eq_of_le, extractLsb'_append_eq_right,
    extractLsb'_append_extractLsb'_eq_extractLsb', extractLsb'_eq_self,
    Nat.reduceLeDiff, Nat.reduceSub, Nat.reduceAdd]

theorem encodeU_ownFields (ho : opcodeOf w = op) : encodeU (immUOf w) (rdOf w) op = w := by
  subst ho
  simp -index only [encodeU, opcodeOf, rdOf, immUOf, regBits_regOf,
    extractLsb'_append_extractLsb'_eq_extractLsb', extractLsb'_eq_self, Nat.reduceAdd]

theorem encodeJ_ownFields (ho : opcodeOf w = op) : encodeJ (immJOf w) (rdOf w) op = w := by
  subst ho
  simp -index only [encodeJ, opcodeOf, rdOf, immJOf, regBits_regOf,
    extractLsb'_append_eq_of_le, extractLsb'_append_eq_right,
    extractLsb'_append_extractLsb'_eq_extractLsb', extractLsb'_eq_self,
    Nat.reduceLeDiff, Nat.reduceSub, Nat.reduceAdd]

end OwnFields

/-- A field with a zero put after it is an even offset, as the formats B and J form theirs
(R90, R92). -/
theorem evenOffset_append_zero {n : Nat} (x : BitVec n) : evenOffset (x ++ 0#1) = true := by
  simp [evenOffset, BitVec.getElem_append]

theorem evenOffset_immBOf (w : Word) : evenOffset (immBOf w) = true := evenOffset_append_zero _

theorem evenOffset_immJOf (w : Word) : evenOffset (immJOf w) = true := evenOffset_append_zero _

end Sys2Proof
end

section
/-!
PROOFS. The decoder and the encoder undo each other (spec/30_encoding.md R80, R96, R99, R103).
-/

namespace Sys2Proof

/-! ## The major opcodes with a table of their own (R103) -/

theorem decode_of_op {w : Word} (h : opcodeOf w = 0b0110011#7) (m : Bool) :
    decode m w = decodeOp m w := by simp [decode, h]

theorem decode_of_opImm {w : Word} (h : opcodeOf w = 0b0010011#7) (m : Bool) :
    decode m w = decodeOpImm w := by simp [decode, h]

theorem decode_of_branch {w : Word} (h : opcodeOf w = 0b1100011#7) (m : Bool) :
    decode m w = decodeBranch w := by simp [decode, h]

/-! ## Decoding an encoding -/

/-- The decoder reads the fields of the word, which are the operands it was encoded from. -/
theorem decode_encode {i : Instr} {m : Bool} (hw : i.wellFormed = true)
    (hm : i.enabledBy m = true) : decode m (encode i) = .instr i := by
  cases i
  case ebreak => rfl
  case lw | jalr | sw | lui | auipc => simp [encode, decode]
  case jal => simp [encode, decode, immJOf_encodeJ hw]
  case beq | bne | blt | bge | bltu | bgeu =>
    simp [encode, decode_of_branch, decodeBranch, immBOf_encodeB hw]
  case addi | slti | sltiu | xori | ori | andi | slli | srli | srai =>
    simp [encode, decode_of_opImm, decodeOpImm]
  case mul | mulh | mulhsu | mulhu | div | divu | rem | remu =>
    obtain rfl : m = true := hm
    simp [encode, decode_of_op, decodeOp]
  all_goals simp [encode, decode_of_op, decodeOp]

/-- Settles O54: `decode_encode`. -/
theorem decodeOfEncode : Obligations.DecodeOfEncode := fun _ _ => decode_encode

/-! ## Encoding what was decoded -/

/-- The answer `r` to the word `w` is a fault, or an instruction that `w` encodes and the toggle `m`
allows. -/
def DecodeResult.Faithful (m : Bool) (w : Word) : DecodeResult → Prop
  | .instr i => encode i = w ∧ i.wellFormed = true ∧ i.enabledBy m = true
  | .decodeFault _ => True

theorem decodeOp_faithful (m : Bool) {w : Word} (ho : opcodeOf w = 0b0110011#7) :
    (decodeOp m w).Faithful m w := by
  unfold decodeOp
  split
  next h7 => split <;> exact ⟨encodeR_ownFields h7 ‹_› ho, rfl, rfl⟩
  next h7 =>
    split
    next h3 => exact ⟨encodeR_ownFields h7 h3 ho, rfl, rfl⟩
    next h3 => exact ⟨encodeR_ownFields h7 h3 ho, rfl, rfl⟩
    next => trivial
  next h7 =>
    split
    next hm => split <;> exact ⟨encodeR_ownFields h7 ‹_› ho, rfl, hm⟩
    next => trivial
  next => trivial

theorem decodeOpImm_faithful (m : Bool) {w : Word} (ho : opcodeOf w = 0b0010011#7) :
    (decodeOpImm w).Faithful m w := by
  unfold decodeOpImm
  split
  case h_7 h3 =>
    split
    next h7 => exact ⟨encodeShift_ownFields h7 h3 ho, rfl, rfl⟩
    next => trivial
  case h_8 h3 =>
    split
    next h7 => exact ⟨encodeShift_ownFields h7 h3 ho, rfl, rfl⟩
    next h7 => exact ⟨encodeShift_ownFields h7 h3 ho, rfl, rfl⟩
    next => trivial
  all_goals exact ⟨encodeI_ownFields ‹_› ho, rfl, rfl⟩

theorem decodeBranch_faithful (m : Bool) {w : Word} (ho : opcodeOf w = 0b1100011#7) :
    (decodeBranch w).Faithful m w := by
  unfold decodeBranch
  split
  case h_7 => trivial
  all_goals exact ⟨encodeB_ownFields ‹_› ho, evenOffset_immBOf w, rfl⟩

theorem decode_faithful (m : Bool) (w : Word) : (decode m w).Faithful m w := by
  unfold decode
  split
  next ho => exact decodeOp_faithful m ho
  next ho => exact decodeOpImm_faithful m ho
  next ho => -- LOAD
    split
    next h3 => exact ⟨encodeI_ownFields h3 ho, rfl, rfl⟩
    next => trivial
  next ho => -- STORE
    split
    next h3 => exact ⟨encodeS_ownFields h3 ho, rfl, rfl⟩
    next => trivial
  next ho => exact decodeBranch_faithful m ho
  next ho => exact ⟨encodeJ_ownFields ho, evenOffset_immJOf w, rfl⟩
  next ho => -- JALR
    split
    next h3 => exact ⟨encodeI_ownFields h3 ho, rfl, rfl⟩
    next => trivial
  next ho => exact ⟨encodeU_ownFields ho, rfl, rfl⟩
  next ho => exact ⟨encodeU_ownFields ho, rfl, rfl⟩
  next => -- SYSTEM
    split
    next hw => exact ⟨hw.symm, rfl, rfl⟩
    next => trivial
  next => trivial

theorem encode_of_decode {m : Bool} {w : Word} {i : Instr} (h : decode m w = .instr i) :
    encode i = w ∧ i.wellFormed = true ∧ i.enabledBy m = true := by
  have hf := decode_faithful m w
  rw [h] at hf
  exact hf

/-- Settles O55: `encode_of_decode`. -/
theorem encodeOfDecode : Obligations.EncodeOfDecode := fun _ _ _ => encode_of_decode

end Sys2Proof
end

section
/-!
PROOFS. The decoder is the opcode table (spec/30_encoding.md R96, R98, R99, R103), and the
immediates are the spec's assemblies of the word's bits (R88 to R92).
-/

namespace Sys2Proof.Machine

/-! ## The rows of the table -/

/-- What a row builds from a word it matches is an instruction that the word encodes, and a
multiply/divide operation exactly when the row says so. -/
def EncodingRow.Encodes (row : EncodingRow) : Prop :=
  ∀ w : Word, w &&& row.mask = row.pattern →
    encode (row.build w) = w ∧ (row.build w).wellFormed = true ∧
      (row.build w).isMulDiv = row.mulDiv

theorem rowR_encodes {p : Word} {md : Bool} {c : Reg → Reg → Reg → Instr}
    (hc : ∀ rd rs1 rs2,
      encode (c rd rs1 rs2) =
        encodeR (p.extractLsb' 25 7) rs2 rs1 (p.extractLsb' 12 3) rd (p.extractLsb' 0 7) ∧
      (c rd rs1 rs2).wellFormed = true ∧ (c rd rs1 rs2).isMulDiv = md) :
    (rowR p md c).Encodes := by
  intro w h
  obtain ⟨ho, h3, h7⟩ := opcode_functs_of_mask h
  obtain ⟨he, hw, hm⟩ := hc (rdOf w) (rs1Of w) (rs2Of w)
  exact ⟨he.trans (encodeR_ownFields h7 h3 ho), hw, hm⟩

theorem rowShift_encodes {p : Word} {c : Reg → Reg → BitVec 5 → Instr}
    (hc : ∀ rd rs1 shamt,
      encode (c rd rs1 shamt) =
        encodeShift (p.extractLsb' 25 7) shamt rs1 (p.extractLsb' 12 3) rd (p.extractLsb' 0 7) ∧
      (c rd rs1 shamt).wellFormed = true ∧ (c rd rs1 shamt).isMulDiv = false) :
    (rowShift p c).Encodes := by
  intro w h
  obtain ⟨ho, h3, h7⟩ := opcode_functs_of_mask h
  obtain ⟨he, hw, hm⟩ := hc (rdOf w) (rs1Of w) (shamtOf w)
  exact ⟨he.trans (encodeShift_ownFields h7 h3 ho), hw, hm⟩

theorem rowI_encodes {p : Word} {c : Reg → Reg → BitVec 12 → Instr}
    (hc : ∀ rd rs1 imm,
      encode (c rd rs1 imm) = encodeI imm rs1 (p.extractLsb' 12 3) rd (p.extractLsb' 0 7) ∧
      (c rd rs1 imm).wellFormed = true ∧ (c rd rs1 imm).isMulDiv = false) :
    (rowI p c).Encodes := by
  intro w h
  obtain ⟨ho, h3⟩ := opcode_funct3_of_mask h
  obtain ⟨he, hw, hm⟩ := hc (rdOf w) (rs1Of w) (immIOf w)
  exact ⟨he.trans (encodeI_ownFields h3 ho), hw, hm⟩

theorem rowB_encodes {p : Word} {c : Reg → Reg → BitVec 13 → Instr}
    (hc : ∀ rs1 rs2 off,
      encode (c rs1 rs2 off) = encodeB off rs2 rs1 (p.extractLsb' 12 3) (p.extractLsb' 0 7) ∧
      (c rs1 rs2 off).wellFormed = evenOffset off ∧ (c rs1 rs2 off).isMulDiv = false) :
    (rowB p c).Encodes := by
  intro w h
  obtain ⟨ho, h3⟩ := opcode_funct3_of_mask h
  obtain ⟨he, hw, hm⟩ := hc (rs1Of w) (rs2Of w) (immBOf w)
  exact ⟨he.trans (encodeB_ownFields h3 ho), hw.trans (evenOffset_immBOf w), hm⟩

theorem rowsRegReg_encode : ∀ row ∈ rowsRegReg, row.Encodes := by
  simp only [rowsRegReg, List.forall_mem_cons, List.not_mem_nil, false_imp_iff, implies_true,
    and_true]
  and_intros <;> exact rowR_encodes fun _ _ _ => ⟨rfl, rfl, rfl⟩

theorem rowsRegImm_encode : ∀ row ∈ rowsRegImm, row.Encodes := by
  simp only [rowsRegImm, List.forall_mem_cons, List.not_mem_nil, false_imp_iff, implies_true,
    and_true]
  and_intros
  iterate 6 exact rowI_encodes fun _ _ _ => ⟨rfl, rfl, rfl⟩
  iterate 3 exact rowShift_encodes fun _ _ _ => ⟨rfl, rfl, rfl⟩

theorem rowsMemoryAndControl_encode : ∀ row ∈ rowsMemoryAndControl, row.Encodes := by
  simp only [rowsMemoryAndControl, List.forall_mem_cons, List.not_mem_nil, false_imp_iff,
    implies_true, and_true]
  and_intros
  · exact rowI_encodes fun _ _ _ => ⟨rfl, rfl, rfl⟩
  · intro w h
    obtain ⟨ho, h3⟩ := opcode_funct3_of_mask h
    exact ⟨encodeS_ownFields h3 ho, rfl, rfl⟩
  iterate 6 exact rowB_encodes fun _ _ _ => ⟨rfl, rfl, rfl⟩
  · exact fun w h => ⟨encodeJ_ownFields (opcodeOf_of_mask h), evenOffset_immJOf w, rfl⟩
  · exact rowI_encodes fun _ _ _ => ⟨rfl, rfl, rfl⟩
  · exact fun w h => ⟨encodeU_ownFields (opcodeOf_of_mask h), rfl, rfl⟩
  · exact fun w h => ⟨encodeU_ownFields (opcodeOf_of_mask h), rfl, rfl⟩

theorem rowsMulDivAndHalt_encode : ∀ row ∈ rowsMulDivAndHalt, row.Encodes := by
  simp only [rowsMulDivAndHalt, List.forall_mem_cons, List.not_mem_nil, false_imp_iff,
    implies_true, and_true]
  and_intros
  iterate 8 exact rowR_encodes fun _ _ _ => ⟨rfl, rfl, rfl⟩
  intro w h
  obtain rfl : w = 0x00100073#32 := BitVec.and_allOnes.symm.trans h
  exact ⟨rfl, rfl, rfl⟩

theorem encodingTable_encodes {row : EncodingRow} (h : row ∈ encodingTable) : row.Encodes := by
  simp only [encodingTable, List.mem_append] at h
  rcases h with ((h | h) | h) | h
  · exact rowsRegReg_encode row h
  · exact rowsRegImm_encode row h
  · exact rowsMemoryAndControl_encode row h
  · exact rowsMulDivAndHalt_encode row h

/-- A row decodes the words it accepts (R96, R103): what it builds is what the word encodes. -/
theorem EncodingRow.Accepts.decode {row : EncodingRow} {m : Bool} {w : Word}
    (ha : row.Accepts m w) (h : row ∈ encodingTable) : decode m w = .instr (row.build w) := by
  obtain ⟨hw, ht⟩ := ha
  obtain ⟨he, hwf, hmd⟩ := encodingTable_encodes h w hw
  have hm : (row.build w).enabledBy m = true := by
    rw [Instr.enabledBy, hmd]
    cases hr : row.mulDiv
    · rfl
    · exact ht hr
  simpa only [he] using decode_encode hwf hm

open Laws.FixedBits in
/-- Every instruction's word has the fixed bits of a row (R96). -/
theorem fixedBits : ∀ i, Statement i
  | .add .. => add .. | .sub .. => sub .. | .sll .. => sll .. | .slt .. => slt ..
  | .sltu .. => sltu .. | .xor .. => xor .. | .srl .. => srl .. | .sra .. => sra ..
  | .or .. => or .. | .and .. => and ..
  | .addi .. => addi .. | .slti .. => slti .. | .sltiu .. => sltiu .. | .xori .. => xori ..
  | .ori .. => ori .. | .andi .. => andi .. | .slli .. => slli .. | .srli .. => srli ..
  | .srai .. => srai ..
  | .lw .. => lw .. | .sw .. => sw ..
  | .beq .. => beq .. | .bne .. => bne .. | .blt .. => blt .. | .bge .. => bge ..
  | .bltu .. => bltu .. | .bgeu .. => bgeu ..
  | .jal .. => jal .. | .jalr .. => jalr .. | .lui .. => lui .. | .auipc .. => auipc ..
  | .mul .. => mul .. | .mulh .. => mulh .. | .mulhsu .. => mulhsu .. | .mulhu .. => mulhu ..
  | .div .. => div .. | .divu .. => divu .. | .rem .. => rem .. | .remu .. => remu ..
  | .ebreak => ebreak

/-- A word that decodes is accepted by a row (R103): the row of the instruction it encodes. -/
theorem accepts_of_decode {m : Bool} {w : Word} {i : Instr} (h : decode m w = .instr i) :
    ∃ row ∈ encodingTable, row.Accepts m w := by
  obtain ⟨rfl, -, hm⟩ := encode_of_decode h
  obtain ⟨row, hrow, hpat, hmd⟩ := fixedBits i
  refine ⟨row, hrow, hpat, fun ht => ?_⟩
  simpa [Instr.enabledBy, ← hmd, ht] using hm

/-- R103: a word decodes to what the row that accepts it builds, and to nothing else. -/
theorem decode_eq_instr_iff (m : Bool) (w : Word) (i : Instr) :
    decode m w = .instr i ↔ ∃ row ∈ encodingTable, row.Accepts m w ∧ row.build w = i := by
  constructor
  · intro h
    obtain ⟨row, hrow, ha⟩ := accepts_of_decode h
    exact ⟨row, hrow, ha, DecodeResult.instr.inj ((ha.decode hrow).symm.trans h)⟩
  · rintro ⟨row, hrow, ha, rfl⟩
    exact ha.decode hrow

/-- Two rows whose patterns differ in a bit that both masks select. -/
def EncodingRow.Differs (p q : EncodingRow) : Prop := p.pattern &&& q.mask ≠ q.pattern &&& p.mask

theorem EncodingRow.Differs.disjoint {p q : EncodingRow} (h : p.Differs q) (w : Word) :
    ¬ (w &&& p.mask = p.pattern ∧ w &&& q.mask = q.pattern) := by
  rintro ⟨hp, hq⟩
  apply h
  rw [← hp, ← hq, BitVec.and_assoc, BitVec.and_assoc, BitVec.and_comm p.mask]

theorem encodingTable_differs : encodingTable.Pairwise EncodingRow.Differs := by
  unfold EncodingRow.Differs
  decide

/-- Settles O56: `encodingTable_differs` for the disjointness and `decode_eq_instr_iff` for the
decoder. -/
theorem decoderIsTheTable : Obligations.DecoderIsTheTable := by
  refine ⟨rfl, encodingTable_differs.imp EncodingRow.Differs.disjoint,
    fun m w => ⟨decode_eq_instr_iff m w, fun hno => ?_⟩⟩
  cases hd : decode m w with
  | instr i =>
    obtain ⟨row, hrow, ha⟩ := accepts_of_decode hd
    exact absurd ha (hno row hrow)
  | decodeFault why => exact ⟨why, rfl⟩

/-! ## The toggle (R99) -/

theorem regBits_zero : regBits 0 = 0#5 := rfl

/-- The multiply/divide words by their fields (R99). -/
theorem mulDivMask_iff (w : Word) :
    w &&& 0xFE00007F#32 = 0x02000033#32 ↔
      opcodeOf w = 0b0110011#7 ∧ funct7Of w = 0b0000001#7 := by
  have hmask : w &&& 0xFE00007F#32 = encodeR (funct7Of w) 0 0 0 0 (opcodeOf w) := by
    conv_lhs => rw [← encodeR_ownFields (w := w) rfl rfl rfl]
    show encodeR (funct7Of w) (rs2Of w) (rs1Of w) (funct3Of w) (rdOf w) (opcodeOf w) &&&
      encodeR 0x7F#7 0 0 0 0 0x7F#7 = _
    simp -index only [encodeR, BitVec.and_append, and_ones7, regBits_zero, BitVec.and_zero,
      BitVec.ofNat_eq_ofNat]
  have hpattern : 0x02000033#32 = encodeR 0b0000001#7 0 0 0 0 0b0110011#7 := rfl
  rw [hmask, hpattern]
  constructor
  · intro h
    exact ⟨by simpa using congrArg opcodeOf h, by simpa using congrArg funct7Of h⟩
  · rintro ⟨ho, h7⟩
    rw [ho, h7]

theorem decodeOp_mulDiv_disabled {w : Word} (h7 : funct7Of w = 0b0000001#7) :
    decodeOp false w = .decodeFault .extensionDisabled := by
  simp [decodeOp, h7]

theorem decodeOp_mulDiv_enabled {w : Word} (h7 : funct7Of w = 0b0000001#7) :
    ∃ i, decodeOp true w = .instr i ∧ i.isMulDiv = true := by
  simp only [decodeOp, h7, if_true]
  split
  all_goals exact ⟨_, by rfl, by rfl⟩

/-- The toggle stands in the decoder's multiply/divide branch alone. -/
theorem decodeOp_toggle {w : Word} (h7 : funct7Of w ≠ 0b0000001#7) :
    decodeOp true w = decodeOp false w := by
  unfold decodeOp
  split
  case h_3 h => exact absurd h h7
  all_goals rfl

theorem decode_toggle {w : Word} (h : opcodeOf w = 0b0110011#7 → funct7Of w ≠ 0b0000001#7) :
    decode true w = decode false w := by
  unfold decode
  split
  case h_1 ho => exact decodeOp_toggle (h ho)
  all_goals rfl

/-- Settles O58: by the two fields that the mask selects. -/
theorem toggleGovernsMulDivOnly : Obligations.ToggleGovernsMulDivOnly := by
  intro w
  rw [ne_eq, mulDivMask_iff]
  constructor
  · rintro ⟨ho, h7⟩
    rw [decode_of_op ho, decode_of_op ho]
    exact ⟨⟨_, decodeOp_mulDiv_disabled h7⟩, decodeOp_mulDiv_enabled h7⟩
  · intro h
    exact decode_toggle fun ho h7 => h ⟨ho, h7⟩

/-! ## The immediates (R88 to R92) -/

/-- A single bit counts negatively. -/
theorem toInt_bit (b : BitVec 1) : b.toInt = -(b.toNat : Int) := by revert b; decide

/-- The signed reading of a field in front of another: the front carries the sign. -/
theorem toInt_succ_append {n k : Nat} (x : BitVec (n + 1)) (y : BitVec k) :
    (x ++ y).toInt = 2 ^ k * x.toInt + y.toNat := by
  simp [BitVec.toInt_append]

/-- The sign bit of a field, taken apart from the rest. -/
theorem extractLsb'_sign {n : Nat} (w : BitVec n) (k l : Nat) :
    w.extractLsb' (k + l) 1 ++ w.extractLsb' k l = w.extractLsb' k (1 + l) :=
  BitVec.extractLsb'_append_extractLsb'_eq_extractLsb' rfl

theorem immIOf_toInt (w : Word) :
    (immIOf w).toInt =
      -(2 ^ 11 * ((w.extractLsb' 31 1).toNat : Int)) + ((w.extractLsb' 20 11).toNat : Int) := by
  have h : immIOf w = w.extractLsb' 31 1 ++ w.extractLsb' 20 11 := (extractLsb'_sign w 20 11).symm
  simp -index only [h, toInt_succ_append, toInt_bit]
  ring

theorem immSOf_toInt (w : Word) :
    (immSOf w).toInt =
      -(2 ^ 11 * ((w.extractLsb' 31 1).toNat : Int)) +
        2 ^ 5 * ((w.extractLsb' 25 6).toNat : Int) + ((w.extractLsb' 7 5).toNat : Int) := by
  have h : w.extractLsb' 25 7 = w.extractLsb' 31 1 ++ w.extractLsb' 25 6 :=
    (extractLsb'_sign w 25 6).symm
  simp -index only [immSOf, h, toInt_succ_append, toInt_bit]
  ring

theorem immBOf_toInt (w : Word) :
    (immBOf w).toInt =
      -(2 ^ 12 * ((w.extractLsb' 31 1).toNat : Int)) +
        2 ^ 11 * ((w.extractLsb' 7 1).toNat : Int) +
        2 ^ 5 * ((w.extractLsb' 25 6).toNat : Int) + 2 * ((w.extractLsb' 8 4).toNat : Int) := by
  simp -index only [immBOf, toInt_succ_append, toInt_bit, BitVec.toNat_ofNat, Nat.zero_mod,
    Nat.cast_zero]
  ring

theorem immJOf_toInt (w : Word) :
    (immJOf w).toInt =
      -(2 ^ 20 * ((w.extractLsb' 31 1).toNat : Int)) +
        2 ^ 12 * ((w.extractLsb' 12 8).toNat : Int) +
        2 ^ 11 * ((w.extractLsb' 20 1).toNat : Int) +
        2 * ((w.extractLsb' 21 10).toNat : Int) := by
  simp -index only [immJOf, toInt_succ_append, toInt_bit, BitVec.toNat_ofNat, Nat.zero_mod,
    Nat.cast_zero]
  ring

/-- A mask of ones above `k` zeros clears the low `k` bits. -/
theorem and_allOnes_append_zero {l k : Nat} (w : BitVec (l + k)) :
    w &&& (BitVec.allOnes l ++ 0#k) = w.extractLsb' k l ++ 0#k := by
  have hw : w = w.extractLsb' k l ++ w.extractLsb' 0 k := by
    rw [BitVec.extractLsb'_append_extractLsb'_eq_extractLsb' (Nat.zero_add k).symm,
      BitVec.extractLsb'_eq_self]
  conv_lhs => rw [hw]
  rw [BitVec.and_append, BitVec.and_allOnes, BitVec.and_zero]

theorem immU_immUOf (w : Word) : immU (immUOf w) = w &&& 0xFFFFF000#32 :=
  (and_allOnes_append_zero (l := 20) (k := 12) w).symm

/-- Settles O57: the assemblies from the concatenations that make up the immediates; the operands
because a decoded instruction's word is its encoding, whose immediate field holds the operand. -/
theorem immediateAssembly : Obligations.ImmediateAssembly := by
  refine ⟨fun w => ⟨?_, ?_, ?_, immU_immUOf w, ?_⟩, ?_, ?_, ?_, ?_, ?_⟩
  · rw [imm12_toInt, immIOf_toInt]
  · rw [imm12_toInt, immSOf_toInt]
  · rw [immB, BitVec.toInt_signExtend_of_le (by decide), immBOf_toInt]
  · rw [immJ, BitVec.toInt_signExtend_of_le (by decide), immJOf_toInt]
  · intro m w rd rs1 imm i h hi
    obtain ⟨rfl, -, -⟩ := encode_of_decode h
    simp only [List.mem_cons, List.not_mem_nil, or_false] at hi
    rcases hi with rfl | rfl | rfl | rfl | rfl | rfl | rfl | rfl <;> simp [encode]
  · intro m w rs1 rs2 imm h
    obtain ⟨rfl, -, -⟩ := encode_of_decode h
    simp [encode]
  · intro m w rs1 rs2 off i h hi
    obtain ⟨rfl, hw, -⟩ := encode_of_decode h
    simp only [List.mem_cons, List.not_mem_nil, or_false] at hi
    rcases hi with rfl | rfl | rfl | rfl | rfl | rfl <;> exact (immBOf_encodeB hw ..).symm
  · intro m w rd imm i h hi
    obtain ⟨rfl, -, -⟩ := encode_of_decode h
    simp only [List.mem_cons, List.not_mem_nil, or_false] at hi
    rcases hi with rfl | rfl <;> simp [encode]
  · intro m w rd off h
    obtain ⟨rfl, hw, -⟩ := encode_of_decode h
    exact (immJOf_encodeJ hw ..).symm

end Sys2Proof.Machine
end

section
/-!
PROOFS. The worked words (spec/30_encoding.md R106) and the pseudo-instructions (R105).
-/

namespace Sys2Proof.Machine

/-- Settles O59: the decoder run on each word. -/
theorem sampleWordsDecode : Obligations.SampleWordsDecode := by
  unfold Obligations.SampleWordsDecode
  decide

/-! ## The words of an expansion -/

/-- No pseudo-instruction abbreviates a multiply/divide instruction. -/
theorem Pseudo.expand_isMulDiv (p : Pseudo) : ∀ i ∈ p.expand, i.isMulDiv = false := by
  cases p
  case li rd imm =>
    simp only [Pseudo.expand]
    split_ifs <;> simp [Instr.isMulDiv]
  all_goals simp [Pseudo.expand, Instr.isMulDiv]

theorem Pseudo.decode_words {p : Pseudo} (m : Bool) (h : ∀ i ∈ p.expand, i.wellFormed = true) :
    p.words.map (decode m) = p.expand.map DecodeResult.instr := by
  rw [Pseudo.words, List.map_map]
  refine List.map_congr_left fun i hi => decode_encode (h i hi) ?_
  simp [Instr.enabledBy, p.expand_isMulDiv i hi]

/-! ## Two instructions in sequence -/

section Sequence

variable {s u t : State} {rd : Reg} {v v' npc npc' : Word}

theorem RetiresWriting.sequence (h : RetiresWriting s t rd v npc) :
    SequenceWriting s t 1 rd v npc where
  reg := h.reg
  pc := h.pc
  icount := h.icount
  mem := h.mem
  status := h.status
  report := h.report
  cfg := h.cfg

/-- The second of two writes to a register is the one that stays. -/
theorem RetiresWriting.trans (h : RetiresWriting s u rd v npc)
    (h' : RetiresWriting u t rd v' npc') :
    SequenceWriting s t 2 rd v' npc' where
  reg r := by
    rw [h'.reg, h.reg]
    split <;> rfl
  pc := h'.pc
  icount := by rw [h'.icount, h.icount]
  mem a := (h'.mem a).trans (h.mem a)
  status := h'.status.trans h.status
  report := h'.report.trans h.report
  cfg := h'.cfg.trans h.cfg

theorem RetiresWriting.transTo (h : RetiresWriting s u rd v npc) (h' : RetiresTo u t npc') :
    SequenceWriting s t 2 rd v npc' where
  reg r := (h'.reg r).trans (h.reg r)
  pc := h'.pc
  icount := by rw [h'.icount, h.icount]
  mem a := (h'.mem a).trans (h.mem a)
  status := h'.status.trans h.status
  report := h'.report.trans h.report
  cfg := h'.cfg.trans h.cfg

end Sequence

theorem execAll_one {i : Instr} {s t : State} (h : exec i s = .next t) :
    execAll [i] s = .next t := by
  rw [execAll_cons_next h, execAll_nil]

theorem execAll_two {i j : Instr} {s u t : State} (h : exec i s = .next u)
    (h' : exec j u = .next t) : execAll [i, j] s = .next t := by
  rw [execAll_cons_next h, execAll_one h']

/-- A write to `x[rd]` decides nothing where `rd` is 0 (R23), so its word may be read as any. -/
theorem SequenceWriting.congr {s t : State} {n : Nat} {rd : Reg} {v v' npc npc' : Word}
    (h : SequenceWriting s t n rd v npc) (hv : rd ≠ 0 → v = v') (hn : npc = npc') :
    SequenceWriting s t n rd v' npc' := by
  subst hn
  refine { h with reg := fun r => ?_ }
  rw [h.reg]
  split
  next hr =>
    obtain ⟨rfl, hne⟩ := hr
    exact hv hne
  next => rfl

theorem pc_add_eight (a : Word) : a + 4#32 + 4#32 = a + 8#32 := by
  rw [BitVec.add_assoc]; rfl

/-- An instruction that forms the upper part in `x[rd]`, then the ADDI of the low part to it: the
second word of the long `li` and of `la` (R105, R193). -/
theorem execAll_addi {i : Instr} {s : State} {rd : Reg} {v : Word} (lo : BitVec 12)
    (h : exec i s = .next (s.writeRetire rd v)) :
    ∃ t, execAll [i, .addi rd rd lo] s = .next t ∧
      SequenceWriting s t 2 rd (v + imm12 lo) (s.pc + 8#32) := by
  refine ⟨_, execAll_two h rfl, SequenceWriting.congr
    ((RetiresWriting.ofWriteRetire s rd v).trans (RetiresWriting.ofWriteRetire _ rd _)) ?_ ?_⟩
  · intro hrd
    simp [State.readReg_writeRetire, hrd, aluAdd]
  · rw [State.writeRetire_pc, pc_add_eight]

/-- The three forms of `li` (R105): the constant is its own low part, or its upper part, or the sum
of the two. -/
theorem execAll_li (s : State) (rd : Reg) (c : Word) :
    ∃ t, execAll (Pseudo.li rd c).expand s = .next t ∧
      SequenceWriting s t (Pseudo.li rd c).expand.length rd c
        (s.pc + BitVec.ofNat 32 (4 * (Pseudo.li rd c).expand.length)) := by
  have hsum := immU_highPart_add c
  simp only [Pseudo.expand]
  split
  next hc =>
    obtain ⟨hlow, hhigh⟩ := hc
    refine ⟨_, execAll_one rfl,
      (RetiresWriting.ofWriteRetire s rd _).sequence.congr (fun _ => ?_) rfl⟩
    simp [aluAdd, imm12_lowPart hlow hhigh]
  next =>
    split
    next h0 =>
      refine ⟨_, execAll_one rfl,
        (RetiresWriting.ofWriteRetire s rd _).sequence.congr (fun _ => ?_) rfl⟩
      simpa [h0, imm12] using hsum
    next =>
      obtain ⟨t, ht, hw⟩ := execAll_addi (lowPart c) (s := s) (i := .lui rd (highPart c)) rfl
      exact ⟨t, ht, hw.congr (fun _ => hsum) rfl⟩

theorem execAll_la (s : State) (rd : Reg) (d : Word) :
    ∃ t, execAll (Pseudo.la rd d).expand s = .next t ∧
      SequenceWriting s t 2 rd (s.pc + d) (s.pc + 8#32) := by
  obtain ⟨t, ht, hw⟩ := execAll_addi (lowPart d) (s := s) (i := .auipc rd (highPart d)) rfl
  refine ⟨t, ht, hw.congr (fun _ => ?_) rfl⟩
  rw [BitVec.add_assoc, immU_highPart_add]

/-! ## The far calls -/

/-- Clearing bit 0 rounds down to an even number (R182). -/
theorem and_clearBit0 (a : Word) : a &&& 0xFFFFFFFE#32 = BitVec.ofNat 32 (2 * (a.toNat / 2)) := by
  have h : a &&& 0xFFFFFFFE#32 = a.extractLsb' 1 31 ++ 0#1 :=
    and_allOnes_append_zero (l := 31) (k := 1) a
  apply BitVec.eq_of_toNat_eq
  rw [h, BitVec.toNat_append]
  simp only [BitVec.extractLsb'_toNat, BitVec.toNat_ofNat, Nat.shiftLeft_eq, Nat.shiftRight_one,
    Nat.zero_mod, Nat.or_zero]
  omega

/-- JALR over the register that AUIPC wrote goes to the label with bit 0 cleared (R105, R182). -/
theorem State.jalrTarget_auipc (s : State) {r : Reg} (hr : r ≠ 0) (d : Word) :
    (s.writeRetire r (s.pc + immU (highPart d))).jalrTarget r (lowPart d) =
      BitVec.ofNat 32 (2 * ((s.pc + d).toNat / 2)) := by
  rw [State.jalrTarget, State.readReg_writeRetire, if_pos ⟨rfl, hr⟩, BitVec.add_assoc,
    immU_highPart_add, and_clearBit0]

theorem execAll_call (s : State) (d : Word) :
    ∃ t, execAll (Pseudo.call d).expand s = .next t ∧
      SequenceWriting s t 2 1 (s.pc + 8#32) (BitVec.ofNat 32 (2 * ((s.pc + d).toNat / 2))) := by
  refine ⟨_, execAll_two rfl rfl, ((RetiresWriting.ofWriteRetire s 1 _).trans
    (RetiresWriting.ofWriteRetireTo _ 1 _ _)).congr (fun _ => ?_)
    (s.jalrTarget_auipc (by decide) d)⟩
  rw [State.linkValue, State.writeRetire_pc, pc_add_eight]

theorem execAll_tail (s : State) (d : Word) :
    ∃ t, execAll (Pseudo.tail d).expand s = .next t ∧
      SequenceWriting s t 2 6 (s.pc + immU (highPart d))
        (BitVec.ofNat 32 (2 * ((s.pc + d).toNat / 2))) :=
  ⟨_, execAll_two rfl rfl, ((RetiresWriting.ofWriteRetire s 6 _).transTo
    (RetiresTo.ofRetireTo _ _)).congr (fun _ => rfl) (s.jalrTarget_auipc (by decide) d)⟩

/-! ## The words of the unimplemented ones (R105, R166, R225, R226) -/

/-- A SYSTEM word whose `funct3` is not EBREAK's is a DecodeFault (R225, R226). -/
theorem decode_system_fault {m : Bool} {w : Word} (ho : opcodeOf w = 0b1110011#7)
    (h3 : funct3Of w ≠ 0b000#3) : decode m w = .decodeFault .unknownMinor := by
  have hw : w ≠ 0x00100073#32 := by
    rintro rfl
    exact h3 rfl
  simp [decode, ho, hw]

/-- A LOAD word that is no LW is a DecodeFault (R166). -/
theorem decode_load_fault {m : Bool} {w : Word} (ho : opcodeOf w = 0b0000011#7)
    (h3 : funct3Of w ≠ 0b010#3) : decode m w = .decodeFault .unknownMinor := by
  simp [decode, ho, h3]

/-- A STORE word that is no SW is a DecodeFault (R166). -/
theorem decode_store_fault {m : Bool} {w : Word} (ho : opcodeOf w = 0b0100011#7)
    (h3 : funct3Of w ≠ 0b010#3) : decode m w = .decodeFault .unknownMinor := by
  simp [decode, ho, h3]

theorem UnimplementedPseudo.last_word_faults (u : UnimplementedPseudo) (m : Bool) :
    ∃ ws w why, u.words = ws ++ [w] ∧ decode m w = .decodeFault why ∧
      ∀ v ∈ ws, ∃ i, decode m v = .instr i := by
  have hauipc (rd : Reg) (d : Word) : ∀ v ∈ [encode (.auipc rd (highPart d))],
      ∃ i, decode m v = .instr i := fun v hv =>
    ⟨_, List.mem_singleton.1 hv ▸ decode_encode rfl rfl⟩
  cases u
  case fence => exact ⟨[], _, .unknownOpcode, rfl, by simp [decode, opcodeOf], by simp⟩
  case csrr | rdcycle =>
    exact ⟨[], _, _, rfl, decode_system_fault (by simp) (by simp), by simp⟩
  case lb rd d | lh rd d =>
    exact ⟨[_], _, _, rfl, decode_load_fault (by simp) (by simp), hauipc rd d⟩
  case sb rs rt d | sh rs rt d =>
    exact ⟨[_], _, _, rfl, decode_store_fault (by simp) (by simp), hauipc rt d⟩

/-- Settles O60: `Pseudo.decode_words` for the decoding, a lemma for each sequence that computes,
and `UnimplementedPseudo.last_word_faults`. -/
theorem pseudoInstructionsExpand : Obligations.PseudoInstructionsExpand :=
  ⟨fun _ m h => Pseudo.decode_words m h, execAll_li, execAll_la, execAll_call, execAll_tail,
    UnimplementedPseudo.last_word_faults⟩

end Sys2Proof.Machine
end

section
/-!
PROOFS. The integer register-register operations (spec/40_integer_register_register.md R121 to R130):
the words of each row, and each result in the spec's own arithmetic.
-/

namespace Sys2Proof.Machine

/-! ## What the register-register statements share -/

/-- A row of the table that needs no toggle decodes every word with its fixed bits, on either machine
(R96, R99). `n` is the row's place in the table, as in `Laws.FixedBits.Statement.ofRow`. -/
theorem decode_of_baseRow {row : EncodingRow} (n : Nat) (hrow : encodingTable[n]? = some row)
    (hbase : row.mulDiv = false) (m : Bool) (w : Word) (hw : w &&& row.mask = row.pattern) :
    decode m w = .instr (row.build w) :=
  EncodingRow.Accepts.decode ⟨hw, fun ht => absurd (hbase.symm.trans ht) Bool.false_ne_true⟩
    (List.mem_of_getElem? hrow)

/-- An instruction that writes a register and goes on retires writing every form of that word. -/
theorem exec_retiresWriting {i : Instr} {s : State} {rd : Reg} {v v' : Word}
    (h : exec i s = .next (s.writeRetire rd v)) (hv : v = v') :
    ∃ t, exec i s = .next t ∧ RetiresWriting s t rd v' (s.pc + 4#32) :=
  ⟨_, h, hv ▸ RetiresWriting.ofWriteRetire s rd v⟩

/-! ## ADD and SUB (R121, R122) -/

/-- The sum of the unsigned readings, modulo 2^32. -/
theorem aluAdd_eq_ofNat (a b : Word) : aluAdd a b = BitVec.ofNat 32 (a.toNat + b.toNat) := by
  simp [aluAdd, BitVec.ofNat_add]

/-- The sum of the signed readings, modulo 2^32. -/
theorem aluAdd_eq_ofInt (a b : Word) : aluAdd a b = BitVec.ofInt 32 (a.toInt + b.toInt) := by
  simp [aluAdd, BitVec.ofInt_add]

/-- The difference of the unsigned readings, modulo 2^32. -/
theorem aluSub_eq_ofInt_toNat (a b : Word) :
    aluSub a b = BitVec.ofInt 32 ((a.toNat : Int) - (b.toNat : Int)) := by
  simp [aluSub, Int.sub_eq_add_neg, BitVec.ofInt_add, BitVec.ofInt_neg, BitVec.sub_eq_add_neg]

/-- The difference of the signed readings, modulo 2^32. -/
theorem aluSub_eq_ofInt_toInt (a b : Word) : aluSub a b = BitVec.ofInt 32 (a.toInt - b.toInt) := by
  simp [aluSub, Int.sub_eq_add_neg, BitVec.ofInt_add, BitVec.ofInt_neg, BitVec.sub_eq_add_neg]

/-- Settles O1: the rows of ADD and SUB, and the two readings of each result. -/
theorem addAndSubWrap : Obligations.AddAndSubWrap :=
  ⟨decode_of_baseRow (row := rowR _ false .add) 0 rfl rfl,
    decode_of_baseRow (row := rowR _ false .sub) 1 rfl rfl,
    fun s rd _ _ => ⟨_, rfl, aluAdd_eq_ofNat _ _ ▸ RetiresWriting.ofWriteRetire s rd _,
      aluAdd_eq_ofInt _ _ ▸ RetiresWriting.ofWriteRetire s rd _⟩,
    fun s rd _ _ => ⟨_, rfl, aluSub_eq_ofInt_toNat _ _ ▸ RetiresWriting.ofWriteRetire s rd _,
      aluSub_eq_ofInt_toInt _ _ ▸ RetiresWriting.ofWriteRetire s rd _⟩⟩

/-! ## SLL, SRL and SRA (R123, R127, R128) -/

/-- Settles O2: the rows of the shifts, and `aluSll_eq`, `aluSrl_eq` and `aluSra_eq` at the amount of
`shiftAmount_eq`. -/
theorem registerShifts : Obligations.RegisterShifts :=
  ⟨decode_of_baseRow (row := rowR _ false .sll) 2 rfl rfl,
    decode_of_baseRow (row := rowR _ false .srl) 6 rfl rfl,
    decode_of_baseRow (row := rowR _ false .sra) 7 rfl rfl,
    fun _ _ _ _ => exec_retiresWriting rfl (by rw [aluSll_eq, shiftAmount_eq]),
    fun _ _ _ _ => exec_retiresWriting rfl (by rw [aluSrl_eq, shiftAmount_eq]),
    fun _ _ _ _ => exec_retiresWriting rfl (by rw [aluSra_eq, shiftAmount_eq])⟩

/-! ## SLT and SLTU (R124, R125) -/

/-- Settles O3: the rows of the comparisons, `aluSlt_eq` and `aluSltu_eq`. -/
theorem setLessThanRegister : Obligations.SetLessThanRegister :=
  ⟨decode_of_baseRow (row := rowR _ false .slt) 3 rfl rfl,
    decode_of_baseRow (row := rowR _ false .sltu) 4 rfl rfl,
    fun _ _ _ _ => exec_retiresWriting rfl (aluSlt_eq _ _),
    fun _ _ _ _ => exec_retiresWriting rfl (aluSltu_eq _ _)⟩

/-! ## XOR, OR and AND (R126, R129, R130) -/

theorem aluXor_getLsbD_iff (a b : Word) (i : Nat) :
    (aluXor a b).getLsbD i = true ↔ a.getLsbD i ≠ b.getLsbD i := by
  rw [aluXor, BitVec.getLsbD_xor, bne_iff_ne]

theorem aluOr_getLsbD_iff (a b : Word) (i : Nat) :
    (aluOr a b).getLsbD i = true ↔ a.getLsbD i = true ∨ b.getLsbD i = true := by
  rw [aluOr, BitVec.getLsbD_or, Bool.or_eq_true]

theorem aluAnd_getLsbD_iff (a b : Word) (i : Nat) :
    (aluAnd a b).getLsbD i = true ↔ a.getLsbD i = true ∧ b.getLsbD i = true := by
  rw [aluAnd, BitVec.getLsbD_and, Bool.and_eq_true]

/-- Settles O4: the rows of the bitwise operations, and `aluXor_getLsbD_iff`, `aluOr_getLsbD_iff` and
`aluAnd_getLsbD_iff` for the bits. -/
theorem bitwiseRegister : Obligations.BitwiseRegister :=
  ⟨decode_of_baseRow (row := rowR _ false .xor) 5 rfl rfl,
    decode_of_baseRow (row := rowR _ false .or) 8 rfl rfl,
    decode_of_baseRow (row := rowR _ false .and) 9 rfl rfl,
    fun s rd _ _ => ⟨_, _, rfl, RetiresWriting.ofWriteRetire s rd _,
      fun i _ => aluXor_getLsbD_iff _ _ i⟩,
    fun s rd _ _ => ⟨_, _, rfl, RetiresWriting.ofWriteRetire s rd _,
      fun i _ => aluOr_getLsbD_iff _ _ i⟩,
    fun s rd _ _ => ⟨_, _, rfl, RetiresWriting.ofWriteRetire s rd _,
      fun i _ => aluAnd_getLsbD_iff _ _ i⟩⟩

end Sys2Proof.Machine
end

section
/-!
PROOFS. The integer register-immediate operations (spec/41_integer_register_immediate.md R141 to R149):
the words of each row, the shift words that are refused, and each result with the sign-extended
immediate or the shift amount.
-/

namespace Sys2Proof.Machine

/-! ## ADDI, SLTI and SLTIU (R141, R142, R143) -/

/-- The sum with an immediate, modulo 2^32, is that of the unsigned word and the immediate's signed
value: the model forms it as an effective address is formed (R51, R141). -/
theorem aluAdd_imm12 (s : State) (rs1 : Reg) (imm : BitVec 12) :
    aluAdd (s.readReg rs1) (imm12 imm) =
      BitVec.ofInt 32 (((s.readReg rs1).toNat : Int) + imm.toInt) :=
  s.effAddr_eq rs1 imm

/-- Settles O5: the rows of ADDI, SLTI and SLTIU, `aluAdd_imm12`, and the comparisons `aluSlt_eq` and
`aluSltu_eq` at the two readings of the immediate's word. -/
theorem immediateArithmetic : Obligations.ImmediateArithmetic :=
  ⟨decode_of_baseRow (row := rowI _ .addi) 10 rfl rfl,
    decode_of_baseRow (row := rowI _ .slti) 11 rfl rfl,
    decode_of_baseRow (row := rowI _ .sltiu) 12 rfl rfl,
    fun s _ rs1 imm => exec_retiresWriting rfl (aluAdd_imm12 s rs1 imm),
    fun _ _ _ _ => exec_retiresWriting rfl (by rw [aluSlt_eq, imm12_toInt]),
    fun _ _ _ _ => exec_retiresWriting rfl (by rw [aluSltu_eq, imm12_eq_ofInt])⟩

/-! ## XORI, ORI and ANDI (R144, R145, R146) -/

/-- Settles O6: the rows of XORI, ORI and ANDI, and the bits of the register forms at the
sign-extended immediate, whose bits `imm12_getLsbD` gives. -/
theorem bitwiseImmediate : Obligations.BitwiseImmediate :=
  ⟨decode_of_baseRow (row := rowI _ .xori) 13 rfl rfl,
    decode_of_baseRow (row := rowI _ .ori) 14 rfl rfl,
    decode_of_baseRow (row := rowI _ .andi) 15 rfl rfl,
    fun s rd _ imm => ⟨_, _, rfl, RetiresWriting.ofWriteRetire s rd _,
      fun i hi => imm12_getLsbD imm hi ▸ aluXor_getLsbD_iff _ _ i⟩,
    fun s rd _ imm => ⟨_, _, rfl, RetiresWriting.ofWriteRetire s rd _,
      fun i hi => imm12_getLsbD imm hi ▸ aluOr_getLsbD_iff _ _ i⟩,
    fun s rd _ imm => ⟨_, _, rfl, RetiresWriting.ofWriteRetire s rd _,
      fun i hi => imm12_getLsbD imm hi ▸ aluAnd_getLsbD_iff _ _ i⟩⟩

/-! ## SLLI, SRLI and SRAI (R147, R148, R149) -/

/-- A word with the opcode and `funct3` of SLLI and another `funct7` is a DecodeFault (R147). -/
theorem decode_slli_fault (m : Bool) {w : Word} (hw : w &&& 0x0000707F#32 = 0x00001013#32)
    (h7 : funct7Of w ≠ 0b0000000#7) : decode m w = .decodeFault .unknownMinor := by
  obtain ⟨ho, h3⟩ : opcodeOf w = 0b0010011#7 ∧ funct3Of w = 0b001#3 := opcode_funct3_of_mask hw
  -- Of the arms under this `funct3`, `h7` leaves the last.
  calc decode m w
      _ = decodeOpImm w := decode_of_opImm ho m
      _ = .decodeFault .unknownMinor := by simp only [decodeOpImm, h3]

/-- A word with the opcode and `funct3` of SRLI and SRAI and a `funct7` of neither is a DecodeFault
(R148, R149). -/
theorem decode_srli_srai_fault (m : Bool) {w : Word} (hw : w &&& 0x0000707F#32 = 0x00005013#32)
    (hsrl : funct7Of w ≠ 0b0000000#7) (hsra : funct7Of w ≠ 0b0100000#7) :
    decode m w = .decodeFault .unknownMinor := by
  obtain ⟨ho, h3⟩ : opcodeOf w = 0b0010011#7 ∧ funct3Of w = 0b101#3 := opcode_funct3_of_mask hw
  -- Of the arms under this `funct3`, `hsrl` and `hsra` leave the last.
  calc decode m w
      _ = decodeOpImm w := decode_of_opImm ho m
      _ = .decodeFault .unknownMinor := by simp only [decodeOpImm, h3]

/-- Settles O7: the rows of the shift-immediates, the two refusals, and `aluSll_eq`, `aluSrl_eq` and
`aluSra_eq` at the amount of the instruction. -/
theorem immediateShifts : Obligations.ImmediateShifts :=
  ⟨decode_of_baseRow (row := rowShift _ .slli) 16 rfl rfl,
    decode_of_baseRow (row := rowShift _ .srli) 17 rfl rfl,
    decode_of_baseRow (row := rowShift _ .srai) 18 rfl rfl,
    fun m _ hw h7 => ⟨_, decode_slli_fault m hw h7⟩,
    fun m _ hw hsrl hsra => ⟨_, decode_srli_srai_fault m hw hsrl hsra⟩,
    fun _ _ _ _ => exec_retiresWriting rfl (aluSll_eq _ _),
    fun _ _ _ _ => exec_retiresWriting rfl (aluSrl_eq _ _),
    fun _ _ _ _ => exec_retiresWriting rfl (aluSra_eq _ _)⟩

end Sys2Proof.Machine
end

section
/-!
PROOFS. The word load and store (spec/42_load_store.md R160 to R166), and the words that end the run
because the machine has no instruction for them (R101, R166, R224 to R226).
-/

namespace Sys2Proof.Machine

/-! ## LW and SW (R161, R162) -/

/-- Settles O8: the row of LW, and its execution by the outcome of the access check. -/
theorem loadWord : Obligations.LoadWord := by
  obtain ⟨-, hfault, -⟩ := accessCheck
  refine ⟨decode_of_baseRow (row := rowI _ .lw) 19 rfl rfl, State.effAddr_eq,
    fun s rd rs1 imm halign hsize => ?load, fun s rd rs1 imm halign => ?misaligned,
    fun s rd rs1 imm halign hsize => ?outside⟩
  case load =>
    have ha := State.checkAccess_eq_none.2 ⟨halign, hsize⟩
    exact exec_retiresWriting (exec_lw_of_checkAccess_none ha) (Memory.wordAt_eq_ofNat _ _)
  case misaligned =>
    exact hfault s rd rs1 imm _ (State.checkAccess_eq_some.2 (.inl ⟨halign, rfl⟩))
  case outside =>
    exact hfault s rd rs1 imm _ (State.checkAccess_eq_some.2 (.inr ⟨halign, hsize, rfl⟩))

/-- Retiring changes neither the memory nor its size, so a read gives what it gave (R53). -/
@[simp] theorem State.memRead_retireNext (s : State) (a : Word) :
    s.retireNext.memRead a = s.memRead a := rfl

/-- Settles O9: the row of SW, and its execution by the outcome of the access check; the stored word
reads back by `storedWordReadsBack`. -/
theorem storeWord : Obligations.StoreWord := by
  obtain ⟨-, -, hfault, -⟩ := accessCheck
  refine ⟨decode_of_baseRow 20 rfl rfl, State.effAddr_eq,
    fun s rs1 rs2 imm halign hsize => ?store, fun s rs1 rs2 imm halign => ?misaligned,
    fun s rs1 rs2 imm halign hsize => ?outside⟩
  case store =>
    have ha := State.checkAccess_eq_none.2 ⟨halign, hsize⟩
    have hwrite := State.memWrite_of_checkAccess_none (s.readReg rs2) ha
    obtain ⟨hread, -⟩ := storedWordReadsBack s _ _ (s.effAddr rs1 imm) _ hwrite
    exact ⟨_, exec_sw_of_checkAccess_none ha, RetiresStoring.ofSetWord s _ _,
      (State.memRead_retireNext _ _).trans hread⟩
  case misaligned =>
    exact hfault s rs1 rs2 imm _ (State.checkAccess_eq_some.2 (.inl ⟨halign, rfl⟩))
  case outside =>
    exact hfault s rs1 rs2 imm _ (State.checkAccess_eq_some.2 (.inr ⟨halign, hsize, rfl⟩))

/-! ## Words without an instruction (R101, R166, R224 to R226) -/

/-- A MISC-MEM word is a DecodeFault, whatever its other bits (R224). -/
theorem decode_miscMem_fault {m : Bool} {w : Word} (ho : opcodeOf w = 0b0001111#7) :
    decode m w = .decodeFault .unknownOpcode := by
  simp [decode, ho]

/-- A SYSTEM word other than EBREAK's is a DecodeFault (R225, R226). -/
theorem decode_system_fault_of_ne_ebreak {m : Bool} {w : Word} (ho : opcodeOf w = 0b1110011#7)
    (hw : w ≠ 0x00100073#32) : decode m w = .decodeFault .unknownMinor := by
  simp [decode, ho, hw]

/-- Every row fixes the low two bits of its words at 11 (R101). -/
theorem encodingTable_lowBits :
    ∀ row ∈ encodingTable, row.mask &&& 0x3#32 = 0x3#32 ∧ row.pattern &&& 0x3#32 = 0x3#32 := by
  decide

/-- The low two bits of a word that decodes are 11 (R101): those of the row that accepts it. -/
theorem lowBits_of_decode {m : Bool} {w : Word} {i : Instr} (h : decode m w = .instr i) :
    w &&& 0x3#32 = 0x3#32 := by
  obtain ⟨row, hrow, hw, -⟩ := accepts_of_decode h
  obtain ⟨hmask, hpattern⟩ := encodingTable_lowBits row hrow
  calc w &&& 0x3#32
      _ = w &&& row.mask &&& 0x3#32 := by rw [BitVec.and_assoc, hmask]
      _ = 0x3#32 := by rw [hw, hpattern]

/-- A word whose low two bits are not 11 is a DecodeFault (R101). -/
theorem decode_lowBits_fault (m : Bool) {w : Word} (hw : w &&& 0x3#32 ≠ 0x3#32) :
    ∃ why, decode m w = .decodeFault why := by
  cases hd : decode m w with
  | instr i => exact absurd (lowBits_of_decode hd) hw
  | decodeFault why => exact ⟨why, rfl⟩

theorem State.decodeFetched_of_decodeFault {s : State} {w : Word} {why : DecodeReject}
    (hd : decode s.cfg.mEnabled w = .decodeFault why) :
    s.decodeFetched w = .stops .decodeFault (some w) := by
  simp only [State.decodeFetched, hd]

/-- A running machine with budget left whose fetched word is refused stops in DecodeFault with that
word (R233, R251). -/
theorem step_of_decodeFault {s : State} {why : DecodeReject} (hr : s.status = .running)
    (hb : s.icount < s.cfg.budget) (ha : s.checkAccess s.pc = none)
    (hd : decode s.cfg.mEnabled (Memory.wordAt s.mem s.pc.toNat) = .decodeFault why) :
    step s = .next (s.endRun .decodeFault (some (Memory.wordAt s.mem s.pc.toNat))) := by
  refine step_of_stops hr ?_
  rw [State.fetchNext_of_checkAccess_none hb ha, State.decodeFetched_of_decodeFault hd]

/-- Settles O33: the decoder refuses each of the five kinds of word, and a refused word ends the run. -/
theorem unimplementedWordsEndTheRun : Obligations.UnimplementedWordsEndTheRun := by
  rintro s w hr hb halign hsize rfl hkind
  have hfault : ∃ why,
      decode s.cfg.mEnabled (Memory.wordAt s.mem s.pc.toNat) = .decodeFault why := by
    rcases hkind with ⟨ho, h3⟩ | ⟨ho, h3⟩ | ho | ⟨ho, hw⟩ | hlow
    · exact ⟨_, decode_load_fault (opcodeOf_of_mask ho) h3⟩
    · exact ⟨_, decode_store_fault (opcodeOf_of_mask ho) h3⟩
    · exact ⟨_, decode_miscMem_fault (opcodeOf_of_mask ho)⟩
    · exact ⟨_, decode_system_fault_of_ne_ebreak (opcodeOf_of_mask ho) hw⟩
    · exact decode_lowBits_fault _ hlow
  obtain ⟨why, hd⟩ := hfault
  exact ⟨_, step_of_decodeFault hr hb (State.checkAccess_eq_none.2 ⟨halign, hsize⟩) hd,
    StopsWith.ofEndRun s _ _⟩

end Sys2Proof.Machine
end

section
/-!
PROOFS. The conditional branches (spec/43_branches.md R171 to R177): the words of each row, the pc rule
they share, and each condition in the spec's own comparison.
-/

namespace Sys2Proof.Machine

/-! ## The pc rule (R171) -/

/-- The target of a taken branch is the sum modulo 2^32 (R171). -/
theorem State.branchTarget_eq (s : State) (off : BitVec 13) :
    s.branchTarget off = BitVec.ofInt 32 ((s.pc.toNat : Int) + off.toInt) := by
  rw [BitVec.ofInt_add, BitVec.ofInt_natCast, BitVec.ofNat_toNat, BitVec.setWidth_eq]
  rfl

/-- A branch whose test decides `cond` retires to its target under `cond` and to the next instruction
otherwise. -/
theorem exec_retiresTo_of_branch {i : Instr} {s : State} {taken : Bool} {off : BitVec 13}
    {cond : Prop} [Decidable cond] (h : exec i s = .next (s.branch taken off))
    (hcond : taken = true ↔ cond) :
    ∃ t, exec i s = .next t ∧ RetiresTo s t (if cond
      then BitVec.ofInt 32 ((s.pc.toNat : Int) + off.toInt) else s.pc + 4#32) := by
  have hbranch := RetiresTo.ofBranch s taken off
  rw [if_congr hcond (s.branchTarget_eq off) rfl] at hbranch
  exact ⟨_, h, hbranch⟩

/-! ## The comparisons (R174 to R177) -/

theorem lessSigned_iff (a b : Word) : lessSigned a b = true ↔ a.toInt < b.toInt :=
  BitVec.slt_iff_toInt_lt

/-- BGE's condition is the exact negation of BLT's (R175). -/
theorem not_lessSigned_iff (a b : Word) : (!lessSigned a b) = true ↔ b.toInt ≤ a.toInt := by
  rw [Bool.not_eq_true', ← Bool.not_eq_true, lessSigned_iff, Int.not_lt]

theorem lessUnsigned_iff (a b : Word) : lessUnsigned a b = true ↔ a.toNat < b.toNat :=
  BitVec.ult_iff_lt.trans BitVec.lt_def

/-- BGEU's condition is the exact negation of BLTU's (R177). -/
theorem not_lessUnsigned_iff (a b : Word) : (!lessUnsigned a b) = true ↔ b.toNat ≤ a.toNat := by
  rw [Bool.not_eq_true', ← Bool.not_eq_true, lessUnsigned_iff, Nat.not_lt]

/-! ## The instructions -/

/-- Settles O10: the rows of BEQ and BNE, and the pc rule on equality and on its negation. -/
theorem branchOnEquality : Obligations.BranchOnEquality := by
  refine ⟨decode_of_baseRow (row := rowB _ .beq) 21 rfl rfl,
    decode_of_baseRow (row := rowB _ .bne) 22 rfl rfl,
    fun s rs1 rs2 off => ?beq, fun s rs1 rs2 off => ?bne⟩
  case beq => exact exec_retiresTo_of_branch rfl beq_iff_eq
  case bne =>
    rw [← ite_not (s.readReg rs1 = s.readReg rs2)]
    exact exec_retiresTo_of_branch rfl bne_iff_ne

/-- Settles O11: the rows of BLT and BGE, and the pc rule at `lessSigned_iff` and
`not_lessSigned_iff`. -/
theorem branchOnSignedOrder : Obligations.BranchOnSignedOrder :=
  ⟨decode_of_baseRow (row := rowB _ .blt) 23 rfl rfl,
    decode_of_baseRow (row := rowB _ .bge) 24 rfl rfl,
    fun _ _ _ _ => exec_retiresTo_of_branch rfl (lessSigned_iff _ _),
    fun _ _ _ _ => exec_retiresTo_of_branch rfl (not_lessSigned_iff _ _)⟩

/-- Settles O12: the rows of BLTU and BGEU, and the pc rule at `lessUnsigned_iff` and
`not_lessUnsigned_iff`. -/
theorem branchOnUnsignedOrder : Obligations.BranchOnUnsignedOrder :=
  ⟨decode_of_baseRow (row := rowB _ .bltu) 25 rfl rfl,
    decode_of_baseRow (row := rowB _ .bgeu) 26 rfl rfl,
    fun _ _ _ _ => exec_retiresTo_of_branch rfl (lessUnsigned_iff _ _),
    fun _ _ _ _ => exec_retiresTo_of_branch rfl (not_lessUnsigned_iff _ _)⟩

end Sys2Proof.Machine
end

section
/-!
PROOFS. The jumps (spec/44_jumps.md R180 to R183): the words of JAL and JALR and those that are
refused, the link, the two targets in the spec's own arithmetic, and the call that comes back.
-/

namespace Sys2Proof.Machine

/-! ## The link and the targets (R180, R181, R182) -/

/-- The link value is the sum modulo 2^32 (R180). -/
theorem State.linkValue_eq (s : State) : s.linkValue = BitVec.ofNat 32 (s.pc.toNat + 4) := by
  rw [State.linkValue, BitVec.ofNat_add, BitVec.ofNat_toNat, BitVec.setWidth_eq]

/-- A word keeps the parity of the integer it is reduced from, as 2^32 is even (R10). -/
theorem ofInt_toNat_even {z : Int} (hz : z % 2 = 0) : (BitVec.ofInt 32 z).toNat % 2 = 0 := by
  rw [BitVec.toNat_ofInt]
  omega

/-- The J-type immediate of every word is even (R92). -/
theorem immJOf_toInt_even (w : Word) : (immJOf w).toInt % 2 = 0 := by
  rw [immJOf_toInt]
  omega

/-- The target of JALR is the sum modulo 2^32, rounded down to an even number (R182). -/
theorem State.jalrTarget_eq (s : State) (rs1 : Reg) (imm : BitVec 12) :
    s.jalrTarget rs1 imm = BitVec.ofNat 32
      (2 * ((BitVec.ofInt 32 (((s.readReg rs1).toNat : Int) + imm.toInt)).toNat / 2)) := by
  rw [← s.effAddr_eq rs1 imm]
  exact and_clearBit0 _

/-- JALR with offset 0 over an even base goes to the base itself (R182). -/
theorem State.jalrTarget_of_even {s : State} {rs1 : Reg} (h : (s.readReg rs1).toNat % 2 = 0) :
    s.jalrTarget rs1 0#12 = s.readReg rs1 := by
  have hround : 2 * ((s.readReg rs1).toNat / 2) = (s.readReg rs1).toNat := by omega
  calc s.jalrTarget rs1 0#12
      _ = s.readReg rs1 &&& 0xFFFFFFFE#32 := by simp [State.jalrTarget, imm12]
      _ = BitVec.ofNat 32 (s.readReg rs1).toNat := by rw [and_clearBit0, hround]
      _ = s.readReg rs1 := by rw [BitVec.ofNat_toNat, BitVec.setWidth_eq]

/-! ## JAL and JALR (R181, R182) -/

/-- Settles O13: the row of JAL, the link and `State.jalTarget_eq`; an even offset from an even pc
leaves the target even. -/
theorem jalLinksAndJumps : Obligations.JalLinksAndJumps := by
  refine ⟨decode_of_baseRow 27 rfl rfl, fun s rd off => ⟨_, rfl, ?retires⟩, fun s w hpc => ?even⟩
  case retires =>
    rw [← s.linkValue_eq, ← s.jalTarget_eq]
    exact RetiresWriting.ofWriteRetireTo s rd _ _
  case even =>
    have hoff := immJOf_toInt_even w
    exact ofInt_toNat_even (by omega)

/-- A word with the opcode of JALR and another `funct3` is a DecodeFault (R98, R182). -/
theorem decode_jalr_fault {m : Bool} {w : Word} (ho : opcodeOf w = 0b1100111#7)
    (h3 : funct3Of w ≠ 0b000#3) : decode m w = .decodeFault .unknownMinor := by
  simp [decode, ho, h3]

/-- JALR retires to the target formed before the link is written (R182). -/
theorem exec_jalr_retiresWriting (s : State) (rd rs1 : Reg) (imm : BitVec 12) :
    ∃ t, exec (.jalr rd rs1 imm) s = .next t ∧
      RetiresWriting s t rd s.linkValue (s.jalrTarget rs1 imm) :=
  ⟨_, rfl, RetiresWriting.ofWriteRetireTo s rd _ _⟩

/-- Settles O14: the row of JALR, `decode_jalr_fault`, and `exec_jalr_retiresWriting` in the spec's
arithmetic. -/
theorem jalrLinksAndJumps : Obligations.JalrLinksAndJumps := by
  refine ⟨decode_of_baseRow (row := rowI _ .jalr) 28 rfl rfl,
    fun m w ho h3 => ⟨_, decode_jalr_fault (opcodeOf_of_mask ho) h3⟩, fun s rd rs1 imm => ?retires⟩
  rw [← s.linkValue_eq, ← s.jalrTarget_eq]
  exact exec_jalr_retiresWriting s rd rs1 imm

/-! ## The call and its return (R183) -/

/-- A running machine with budget left executes the instruction its word at the pc decodes to (R230). -/
theorem step_of_decode {s : State} {i : Instr} (hr : s.status = .running)
    (hb : s.icount < s.cfg.budget) (ha : s.checkAccess s.pc = none)
    (hd : decode s.cfg.mEnabled (Memory.wordAt s.mem s.pc.toNat) = .instr i) :
    step s = exec i s := by
  refine step_of_instr hr ?_
  rw [State.fetchNext_of_checkAccess_none hb ha, State.decodeFetched_of_instr hd]

/-- The step of a `jalr rd, 0(r)` over an even base: both the call and the return of R183. -/
theorem step_jalr_of_even {s : State} {rd r : Reg} (hr : s.status = .running)
    (hb : s.icount < s.cfg.budget) (ha : s.checkAccess s.pc = none)
    (hd : decode s.cfg.mEnabled (Memory.wordAt s.mem s.pc.toNat) = .instr (.jalr rd r 0#12))
    (heven : (s.readReg r).toNat % 2 = 0) :
    ∃ t, step s = .next t ∧ RetiresWriting s t rd (s.pc + 4#32) (s.readReg r) := by
  rw [step_of_decode hr hb ha hd, ← State.jalrTarget_of_even heven]
  exact exec_jalr_retiresWriting s rd r 0#12

/-- The register an instruction wrote reads what was written (R22). -/
theorem RetiresWriting.readReg_same {s t : State} {r : Reg} {v npc : Word}
    (h : RetiresWriting s t r v npc) (hr : r ≠ 0) : t.readReg r = v := by
  rw [h.reg, if_pos ⟨rfl, hr⟩]

/-- An instruction whose destination is `x[0]` leaves every register as it was (R23). -/
theorem RetiresWriting.readReg_of_zero {s t : State} {v npc : Word}
    (h : RetiresWriting s t 0 v npc) (r : Reg) : t.readReg r = s.readReg r := by
  rw [h.reg, if_neg fun hr => hr.2 hr.1]

/-- An instruction that writes a register leaves every word of memory as it was (R25). -/
theorem RetiresWriting.wordAt_eq {s t : State} {rd : Reg} {v npc : Word}
    (h : RetiresWriting s t rd v npc) (a : Nat) : Memory.wordAt t.mem a = Memory.wordAt s.mem a :=
  Memory.wordAt_congr fun b _ _ => h.mem b

/-- Settles O15: JALR through its own link register by `jalrLinksAndJumps`; the call and the return
are each a step of `step_jalr_of_even`, the second with the link of the first as its base. -/
theorem sourceBeforeDestination : Obligations.SourceBeforeDestination := by
  refine ⟨fun s r imm hr0 => ?own, fun s r hr0 hrun hbudget hpc hpcSize hbase hbaseSize hcall hret =>
    ?callReturn⟩
  case own =>
    obtain ⟨-, -, hexec⟩ := jalrLinksAndJumps
    obtain ⟨t, ht, hw⟩ := hexec s r r imm
    exact ⟨t, ht, hw.readReg_same hr0, hw.pc⟩
  case callReturn =>
    obtain ⟨t, ht, hw⟩ := step_jalr_of_even hrun (by omega)
      (State.checkAccess_eq_none.2 ⟨hpc, hpcSize⟩) hcall (by omega)
    have hlink : t.readReg r = s.pc + 4#32 := hw.readReg_same hr0
    have hfetch : t.checkAccess t.pc = none := by
      rw [State.checkAccess_congr (congrArg Config.memSize hw.cfg), hw.pc]
      exact State.checkAccess_eq_none.2 ⟨hbase, hbaseSize⟩
    have hword : decode t.cfg.mEnabled (Memory.wordAt t.mem t.pc.toNat) =
        .instr (.jalr 0 r 0#12) := by
      rw [hw.wordAt_eq, hw.cfg, hw.pc, hret]
    have heven : (t.readReg r).toNat % 2 = 0 := by
      rw [hlink, BitVec.toNat_add, BitVec.toNat_ofNat]
      omega
    obtain ⟨u, hu, hw'⟩ := step_jalr_of_even (hw.status.trans hrun)
      (by rw [hw.icount, hw.cfg]; omega) hfetch hword heven
    exact ⟨t, u, ht, hw.pc, hu, hw'.pc.trans hlink, (hw'.readReg_of_zero r).trans hlink⟩

end Sys2Proof.Machine
end

section
/-!
PROOFS. The upper-immediate forms (spec/45_upper_immediate.md R191 to R193): the words of LUI and
AUIPC, their results in the spec's own arithmetic, and the constant that LUI and ADDI build.
-/

namespace Sys2Proof.Machine

/-! ## LUI and AUIPC (R191, R192) -/

/-- The U-type immediate is its 20-bit field times 2^12 (R91). -/
theorem immU_eq_ofNat (imm : BitVec 20) : immU imm = BitVec.ofNat 32 (imm.toNat * 2 ^ 12) := by
  apply BitVec.eq_of_toNat_eq
  simp only [immU, BitVec.toNat_append, BitVec.toNat_ofNat, Nat.shiftLeft_eq, Nat.zero_mod,
    Nat.or_zero]
  omega

/-- The pc with an upper immediate added is the sum modulo 2^32 (R192). -/
theorem add_immU_eq_ofNat (a : Word) (imm : BitVec 20) :
    a + immU imm = BitVec.ofNat 32 (a.toNat + imm.toNat * 2 ^ 12) := by
  rw [immU_eq_ofNat, BitVec.ofNat_add, BitVec.ofNat_toNat, BitVec.setWidth_eq]

/-- Settles O16: the rows of LUI and AUIPC, `immU_eq_ofNat` and `add_immU_eq_ofNat`. -/
theorem upperImmediates : Obligations.UpperImmediates :=
  ⟨decode_of_baseRow 29 rfl rfl,
    decode_of_baseRow 30 rfl rfl,
    fun _ _ imm => exec_retiresWriting rfl (immU_eq_ofNat imm),
    fun s _ imm => exec_retiresWriting rfl (add_immU_eq_ofNat s.pc imm)⟩

/-! ## LUI then ADDI (R193) -/

/-- `hi` over the integers: the upper 20 bits of `c - lo`, modulo 2^32 (R193). -/
theorem highPart_eq_ofInt (c : Word) :
    highPart c =
      (BitVec.ofInt 32 ((c.toNat : Int) - (lowPart c).toInt)).extractLsb' 12 20 := by
  have hsub : c - imm12 (lowPart c) = BitVec.ofInt 32 ((c.toNat : Int) - (lowPart c).toInt) := by
    simp [imm12_eq_ofInt, Int.sub_eq_add_neg, BitVec.ofInt_add, BitVec.ofInt_neg,
      BitVec.sub_eq_add_neg]
  rw [highPart, hsub]

/-- The sign of `lo` is bit 11 of the constant (R193). -/
theorem lowPart_msb (c : Word) : (lowPart c).msb = c.getLsbD 11 := by
  simp [lowPart, BitVec.msb_eq_getLsbD_last]

/-- The sign extension of `lo` subtracts 2^12 from its unsigned reading when `c[11] = 1` (R88). -/
theorem imm12_lowPart_toNat (c : Word) :
    (imm12 (lowPart c)).toNat =
      c.toNat % 2 ^ 12 + (if c.getLsbD 11 then 2 ^ 32 - 2 ^ 12 else 0) := by
  rw [imm12, BitVec.toNat_signExtend, lowPart_msb, BitVec.toNat_setWidth_of_le (by decide)]
  simp [lowPart]

/-- `hi` is `c[31:12]`, and one more when `c[11] = 1`, which makes up for the negative `lo` (R193). -/
theorem highPart_eq_add_carry (c : Word) :
    highPart c = c.extractLsb' 12 20 + (if c.getLsbD 11 then 1#20 else 0#20) := by
  have hlo := imm12_lowPart_toNat c
  have hc := c.isLt
  apply BitVec.eq_of_toNat_eq
  simp only [highPart, BitVec.toNat_add, BitVec.extractLsb'_toNat, BitVec.toNat_sub,
    Nat.shiftRight_eq_div_pow]
  by_cases hbit : c.getLsbD 11 = true
  · simp only [if_pos hbit, BitVec.toNat_ofNat] at hlo ⊢
    omega
  · simp only [if_neg hbit, BitVec.toNat_ofNat] at hlo ⊢
    omega

/-- Settles O17: `hi` is `highPart c`, and the register reads what ADDI wrote over LUI's word, the sum
of `immU_highPart_add`. -/
theorem luiThenAddiBuildsConstant : Obligations.LuiThenAddiBuildsConstant := by
  intro s rd c hrd
  have hlui := RetiresWriting.ofWriteRetire s rd (immU (highPart c))
  refine ⟨highPart c, _, _, highPart_eq_ofInt c, highPart_eq_add_carry c, rfl, rfl, ?reads⟩
  case reads =>
    rw [(RetiresWriting.ofWriteRetire _ rd _).readReg_same hrd, hlui.readReg_same hrd, aluAdd]
    exact immU_highPart_add c

end Sys2Proof.Machine
end

section
/-!
PROOFS. Multiply and divide (spec/46_multiply_divide.md R201 to R210): the words of the eight rows,
the two halves of a product, and the quotients and remainders as the library's truncated and floor
division.
-/

namespace Sys2Proof.Machine

/-! ## What the multiply/divide statements share -/

/-- A row of the table decodes every word with its fixed bits on a machine with the extension
(R96, R99). `n` is the row's place in the table. -/
theorem decode_true_of_row {row : EncodingRow} (n : Nat) (hrow : encodingTable[n]? = some row)
    (w : Word) (hw : w &&& row.mask = row.pattern) : decode true w = .instr (row.build w) :=
  EncodingRow.Accepts.decode ⟨hw, fun _ => rfl⟩ (List.mem_of_getElem? hrow)

/-- Writing a register and going on is the claims' `RetiresWriting` for every form of the word. -/
theorem RetiresWriting.ofEq (s : State) (rd : Reg) {v v' : Word} (hv : v = v') :
    RetiresWriting s (s.writeRetire rd v) rd v' (s.pc + 4#32) :=
  hv ▸ RetiresWriting.ofWriteRetire s rd v

theorem State.readReg_writeRetire_same (s : State) {r : Reg} (v : Word) (hr : r ≠ 0) :
    (s.writeRetire r v).readReg r = v :=
  (RetiresWriting.ofWriteRetire s r v).readReg_same hr

/-! ## MUL (R201) -/

/-- The product of the unsigned readings, modulo 2^32. -/
theorem aluMul_eq_ofNat (a b : Word) : aluMul a b = BitVec.ofNat 32 (a.toNat * b.toNat) := by
  simp [aluMul, BitVec.ofNat_mul]

/-- The product of the signed readings, modulo 2^32. -/
theorem aluMul_eq_ofInt (a b : Word) : aluMul a b = BitVec.ofInt 32 (a.toInt * b.toInt) := by
  simp [aluMul, BitVec.ofInt_mul]

/-- The product of a signed and an unsigned reading, modulo 2^32. -/
theorem aluMul_eq_ofInt_mixed (a b : Word) :
    aluMul a b = BitVec.ofInt 32 (a.toInt * (b.toNat : Int)) := by
  simp [aluMul, BitVec.ofInt_mul]

/-- The routine's test reads the parity of the multiplier. -/
theorem aluAnd_one_eq_zero_iff (b : Word) : aluAnd b 1#32 = 0#32 ↔ b.toNat % 2 = 0 := by
  rw [← BitVec.toNat_inj]
  simp [aluAnd, Nat.and_one_is_mod]

/-- One round adds the multiplicand as often as the multiplier's low bit says. -/
theorem shiftAndAdd_round (acc a b : Word) :
    (if aluAnd b 1#32 = 0#32 then acc else aluAdd acc a) =
      acc + a * BitVec.ofNat 32 (b.toNat % 2) := by
  simp only [aluAnd_one_eq_zero_iff, aluAdd]
  rcases Nat.mod_two_eq_zero_or_one b.toNat with h | h <;> simp [h]

/-- `k` rounds add the multiplicand times the low `k` bits of the multiplier: what is left of the
multiplier is halved while the multiplicand is doubled. -/
theorem shiftAndAdd_eq (k : Nat) (acc a b : Word) :
    shiftAndAdd k acc a b = acc + a * BitVec.ofNat 32 (b.toNat % 2 ^ k) := by
  induction k generalizing acc a b with
  | zero => simp [shiftAndAdd, Nat.mod_one]
  | succ k ih =>
    have hdouble : aluSll a 1 = a * 2#32 := by simp [aluSll_eq, BitVec.ofNat_mul]
    have hhalve : (aluSrl b 1).toNat = b.toNat / 2 := by
      simp [aluSrl, Nat.shiftRight_eq_div_pow]
    rw [shiftAndAdd, shiftAndAdd_round, ih, hdouble, hhalve, Nat.pow_succ', Nat.mod_mul,
      BitVec.ofNat_add, BitVec.ofNat_mul, BitVec.mul_add, BitVec.add_assoc, BitVec.mul_assoc]

/-- 32 rounds of shift-and-add make the product (R201). -/
theorem aluMul_eq_shiftAndAdd (a b : Word) : aluMul a b = shiftAndAdd 32 0#32 a b := by
  rw [shiftAndAdd_eq, Nat.mod_eq_of_lt b.isLt]
  simp [aluMul]

/-- Settles O18: the row of MUL and the three forms of its result. -/
theorem multiplyLow : Obligations.MultiplyLow :=
  ⟨decode_true_of_row (row := rowR _ true .mul) 31 rfl,
    fun s rd _ _ _ => ⟨_, rfl, .ofEq s rd (aluMul_eq_ofNat _ _), .ofEq s rd (aluMul_eq_ofInt _ _),
      .ofEq s rd (aluMul_eq_shiftAndAdd _ _)⟩⟩

/-! ## MULH, MULHSU and MULHU (R202 to R204) -/

/-- The high half is bits 63 to 32 of the 64-bit two's-complement product. -/
theorem highHalf_eq_extractLsb' (p : Int) :
    highHalf p = (BitVec.ofInt 64 p).extractLsb' 32 32 := by
  apply BitVec.eq_of_toNat_eq
  simp only [highHalf, BitVec.extractLsb'_toNat, BitVec.toNat_ofInt, Nat.shiftRight_eq_div_pow]
  omega

theorem signExtend_eq_ofInt (a : Word) : a.signExtend 64 = BitVec.ofInt 64 a.toInt := rfl

theorem zeroExtend_eq_ofInt (a : Word) : a.zeroExtend 64 = BitVec.ofInt 64 (a.toNat : Int) := by
  rw [BitVec.ofInt_natCast, BitVec.ofNat_toNat]

theorem aluMulh_eq (a b : Word) :
    aluMulh a b = (a.signExtend 64 * b.signExtend 64).extractLsb' 32 32 := by
  rw [aluMulh, highHalf_eq_extractLsb', BitVec.ofInt_mul, signExtend_eq_ofInt, signExtend_eq_ofInt]

theorem aluMulhsu_eq (a b : Word) :
    aluMulhsu a b = (a.signExtend 64 * b.zeroExtend 64).extractLsb' 32 32 := by
  rw [aluMulhsu, highHalf_eq_extractLsb', BitVec.ofInt_mul, signExtend_eq_ofInt,
    zeroExtend_eq_ofInt]

theorem aluMulhu_eq (a b : Word) :
    aluMulhu a b = (a.zeroExtend 64 * b.zeroExtend 64).extractLsb' 32 32 := by
  rw [aluMulhu, highHalf_eq_extractLsb', BitVec.ofInt_mul, zeroExtend_eq_ofInt, zeroExtend_eq_ofInt]

/-- Settles O19: the rows of the three instructions, `aluMulh_eq`, `aluMulhsu_eq` and
`aluMulhu_eq`. -/
theorem multiplyHigh : Obligations.MultiplyHigh :=
  ⟨decode_true_of_row (row := rowR _ true .mulh) 32 rfl,
    decode_true_of_row (row := rowR _ true .mulhsu) 33 rfl,
    decode_true_of_row (row := rowR _ true .mulhu) 34 rfl,
    fun _ _ _ _ _ => exec_retiresWriting rfl (aluMulh_eq _ _),
    fun _ _ _ _ _ => exec_retiresWriting rfl (aluMulhsu_eq _ _),
    fun _ _ _ _ _ => exec_retiresWriting rfl (aluMulhu_eq _ _)⟩

/-! ## The two halves of a product (R210) -/

/-- An unsigned 64-bit product is its high half and its low word. -/
theorem highHalf_toNat_add_low {p : Nat} (hp : p < 2 ^ 64) :
    (highHalf p).toNat * 2 ^ 32 + (BitVec.ofNat 32 p).toNat = p := by
  simp only [highHalf, BitVec.toNat_ofInt, BitVec.toNat_ofNat]
  omega

/-- A signed 64-bit product is its high half, read with its sign, and its low word. -/
theorem highHalf_toInt_add_low {p : Int} (hlo : -2 ^ 63 ≤ p) (hhi : p < 2 ^ 63) :
    (highHalf p).toInt * 2 ^ 32 + ((BitVec.ofInt 32 p).toNat : Int) = p := by
  have hhigh : (highHalf p).toInt = p / 2 ^ 32 :=
    BitVec.toInt_ofInt_eq_self (by decide) (by omega) (by omega)
  rw [hhigh, BitVec.toNat_ofInt]
  omega

/-- A signed reading times an unsigned one is a signed 64-bit number. -/
theorem toInt_mul_toNat_bounds (a b : Word) :
    -2 ^ 63 ≤ a.toInt * (b.toNat : Int) ∧ a.toInt * (b.toNat : Int) < 2 ^ 63 := by
  have ha : a.toInt.natAbs ≤ 2 ^ 31 := by
    have := a.le_toInt
    have := a.toInt_lt
    omega
  have hmul : (a.toInt * (b.toNat : Int)).natAbs ≤ 2 ^ 31 * (2 ^ 32 - 1) := by
    rw [Int.natAbs_mul]
    exact Nat.mul_le_mul ha (Nat.le_sub_one_of_lt b.isLt)
  omega

theorem aluMulhu_toNat_add_aluMul (a b : Word) :
    (aluMulhu a b).toNat * 2 ^ 32 + (aluMul a b).toNat = a.toNat * b.toNat := by
  have hp : a.toNat * b.toNat < 2 ^ 32 * 2 ^ 32 := Nat.mul_lt_mul'' a.isLt b.isLt
  rw [aluMulhu, aluMul_eq_ofNat, ← Int.natCast_mul]
  exact highHalf_toNat_add_low hp

theorem aluMulh_toInt_add_aluMul (a b : Word) :
    (aluMulh a b).toInt * 2 ^ 32 + ((aluMul a b).toNat : Int) = a.toInt * b.toInt := by
  have hlo : -2 ^ 62 ≤ a.toInt * b.toInt := BitVec.le_toInt_mul_toInt
  have hhi : a.toInt * b.toInt ≤ 2 ^ 62 := BitVec.toInt_mul_toInt_le
  rw [aluMulh, aluMul_eq_ofInt]
  exact highHalf_toInt_add_low (by omega) (by omega)

theorem aluMulhsu_toInt_add_aluMul (a b : Word) :
    (aluMulhsu a b).toInt * 2 ^ 32 + ((aluMul a b).toNat : Int) = a.toInt * (b.toNat : Int) := by
  obtain ⟨hlo, hhi⟩ := toInt_mul_toNat_bounds a b
  rw [aluMulhsu, aluMul_eq_ofInt_mixed]
  exact highHalf_toInt_add_low hlo hhi

/-- Settles O20: the product of each pair of results, read from the register that holds them. -/
theorem highAndLowMakeTheProduct : Obligations.HighAndLowMakeTheProduct := by
  intro s r rs1 rs2 _ hr
  refine ⟨_, _, _, _, rfl, rfl, rfl, rfl, ?_⟩
  simp only [State.readReg_writeRetire_same s _ hr]
  exact ⟨aluMulhu_toNat_add_aluMul _ _, aluMulh_toInt_add_aluMul _ _,
    aluMulhsu_toInt_add_aluMul _ _⟩

/-! ## Truncated division by magnitudes (R205, R207) -/

/-- The quotient toward zero has the quotient of the magnitudes, and is negative when exactly one
operand is. -/
theorem tdiv_eq_ite_natAbs (a b : Int) :
    a.tdiv b = if (a < 0 ↔ b < 0) then ((a.natAbs / b.natAbs : Nat) : Int)
      else -((a.natAbs / b.natAbs : Nat) : Int) :=
  match a, b with
  | .ofNat _, .ofNat _ => (if_pos (iff_of_false (by simp) (by simp))).symm
  | .ofNat _, .negSucc _ => (if_neg (by simp [Int.negSucc_lt_zero])).symm
  | .negSucc _, .ofNat _ => (if_neg (by simp [Int.negSucc_lt_zero])).symm
  | .negSucc _, .negSucc _ => (if_pos (by simp [Int.negSucc_lt_zero])).symm

theorem tmod_nonpos {a : Int} (b : Int) (ha : a ≤ 0) : a.tmod b ≤ 0 := by
  have hneg := Int.tmod_nonneg b (Int.neg_nonneg_of_nonpos ha)
  rwa [Int.neg_tmod, Int.neg_nonneg] at hneg

/-- The remainder of the division toward zero has the remainder of the magnitudes and the sign of
the dividend. -/
theorem tmod_eq_ite_natAbs (a b : Int) :
    a.tmod b = if a < 0 then -((a.natAbs % b.natAbs : Nat) : Int)
      else ((a.natAbs % b.natAbs : Nat) : Int) := by
  rw [← Int.natAbs_tmod]
  split
  · next ha =>
    have := tmod_nonpos b ha.le
    omega
  · next ha =>
    have := Int.tmod_nonneg b (not_lt.mp ha)
    omega

/-! ## DIV and REM (R205, R207) -/

theorem toInt_ne_zero {b : Word} (hb : b ≠ 0#32) : b.toInt ≠ 0 :=
  mt (BitVec.toInt_inj (y := 0#32)).mp hb

theorem aluDiv_zero (a : Word) : aluDiv a 0#32 = 0xFFFFFFFF#32 := rfl

theorem aluDiv_overflow : aluDiv 0x80000000#32 0xFFFFFFFF#32 = 0x80000000#32 := rfl

/-- For a nonzero divisor DIV writes the quotient toward zero modulo 2^32, at the overflow too. -/
theorem aluDiv_of_ne_zero (a : Word) {b : Word} (hb : b ≠ 0#32) :
    aluDiv a b = BitVec.ofInt 32 (a.toInt.tdiv b.toInt) := by
  rw [aluDiv, if_neg (toInt_ne_zero hb), ite_eq_right_iff]
  rintro ⟨hmin, hneg⟩
  rw [hmin, hneg]
  rfl

theorem aluRem_zero (a : Word) : aluRem a 0#32 = a := rfl

theorem aluRem_overflow : aluRem 0x80000000#32 0xFFFFFFFF#32 = 0#32 := rfl

/-- REM writes the remainder of the division toward zero, at a zero divisor and at the overflow
too. -/
theorem aluRem_eq_ofInt_tmod (a b : Word) :
    aluRem a b = BitVec.ofInt 32 (a.toInt.tmod b.toInt) := by
  rw [aluRem, ← Int.tmod_def]
  split
  · next hb => rw [hb, Int.tmod_zero, BitVec.ofInt_toInt]
  · split
    · next ho => rw [ho.1, ho.2]; rfl
    · rfl

/-- The remainder fits a word, so it is read back exactly. -/
theorem aluRem_toInt (a b : Word) : (aluRem a b).toInt = a.toInt.tmod b.toInt := by
  rw [aluRem_eq_ofInt_tmod, ← BitVec.toInt_srem, BitVec.ofInt_toInt]

/-- Settles O21: the row of DIV, its two corners, and `tdiv_eq_ite_natAbs` elsewhere. -/
theorem divideSigned : Obligations.DivideSigned := by
  refine ⟨decode_true_of_row (row := rowR _ true .div) 35 rfl,
    fun s rd rs1 rs2 _ => exec_retiresWriting rfl ?_⟩
  split
  · next hb => rw [hb, aluDiv_zero]
  · next hb =>
    split
    · next ho => rw [ho.1, ho.2, aluDiv_overflow]
    · rw [aluDiv_of_ne_zero _ hb, tdiv_eq_ite_natAbs, apply_ite (BitVec.ofInt 32)]

/-- Settles O22: the row of REM, its two corners, and `tmod_eq_ite_natAbs` elsewhere. -/
theorem remainderSigned : Obligations.RemainderSigned := by
  refine ⟨decode_true_of_row (row := rowR _ true .rem) 37 rfl,
    fun s rd rs1 rs2 _ => exec_retiresWriting rfl ?_⟩
  split
  · next hb => rw [hb, aluRem_zero]
  · split
    · next ho => rw [ho.1, ho.2, aluRem_overflow]
    · rw [aluRem_eq_ofInt_tmod, tmod_eq_ite_natAbs, apply_ite (BitVec.ofInt 32)]

/-! ## DIVU and REMU (R206, R208) -/

theorem aluDivu_zero (a : Word) : aluDivu a 0#32 = 0xFFFFFFFF#32 := rfl

theorem aluRemu_zero (a : Word) : aluRemu a 0#32 = a := rfl

theorem aluDivu_toNat (a : Word) {b : Word} (hb : b ≠ 0#32) :
    (aluDivu a b).toNat = a.toNat / b.toNat := by
  rw [aluDivu, if_neg (BitVec.toNat_pos_of_ne_zero hb).ne', BitVec.toNat_ofNat]
  exact Nat.mod_eq_of_lt (Nat.lt_of_le_of_lt (Nat.div_le_self _ _) a.isLt)

theorem aluRemu_toNat (a b : Word) : (aluRemu a b).toNat = a.toNat % b.toNat := by
  rw [aluRemu]
  split
  · next hb => rw [hb, Nat.mod_zero]
  · rw [BitVec.toNat_ofNat]
    exact Nat.mod_eq_of_lt (Nat.lt_of_le_of_lt (Nat.mod_le _ _) a.isLt)

/-- Settles O23: the rows of DIVU and REMU, and the floor quotient and its remainder. -/
theorem divideUnsigned : Obligations.DivideUnsigned := by
  refine ⟨decode_true_of_row (row := rowR _ true .divu) 36 rfl,
    decode_true_of_row (row := rowR _ true .remu) 38 rfl,
    fun s rd rs1 rs2 _ => ⟨_, _, rfl, .ofWriteRetire s rd _, ?divuZero, fun hb => ?divu⟩,
    fun s rd rs1 rs2 _ => ⟨_, _, rfl, .ofWriteRetire s rd _, ?remuZero, fun hb => ?remu⟩⟩
  case divuZero => intro hb; rw [hb, aluDivu_zero]
  case divu =>
    rw [aluDivu_toNat _ hb]
    exact ⟨Nat.mul_div_le _ _, Nat.lt_mul_div_succ _ (BitVec.toNat_pos_of_ne_zero hb)⟩
  case remuZero => intro hb; rw [hb, aluRemu_zero]
  case remu =>
    rw [aluRemu_toNat]
    exact ⟨Nat.mod_lt _ (BitVec.toNat_pos_of_ne_zero hb), _, (Nat.div_add_mod _ _).symm⟩

/-! ## Quotient and remainder together (R207, R209) -/

/-- The dividend is divisor times quotient plus remainder, modulo 2^32. -/
theorem mul_aluDiv_add_aluRem (a : Word) {b : Word} (hb : b ≠ 0#32) :
    b * aluDiv a b + aluRem a b = a := by
  calc b * aluDiv a b + aluRem a b
      = BitVec.ofInt 32 (b.toInt * a.toInt.tdiv b.toInt + a.toInt.tmod b.toInt) := by
        rw [aluDiv_of_ne_zero a hb, aluRem_eq_ofInt_tmod, BitVec.ofInt_add, BitVec.ofInt_mul,
          BitVec.ofInt_toInt]
    _ = a := by rw [Int.mul_tdiv_add_tmod, BitVec.ofInt_toInt]

/-- Settles O24: `mul_aluDiv_add_aluRem`, and the magnitude and the sign of the remainder by
`aluRem_toInt`. -/
theorem quotientAndRemainderRecompose : Obligations.QuotientAndRemainderRecompose := by
  intro s r rs1 rs2 _ hr hb
  refine ⟨_, _, rfl, rfl, ?_⟩
  simp only [State.readReg_writeRetire_same s _ hr, aluRem_toInt]
  refine ⟨(mul_aluDiv_add_aluRem _ hb).symm, ?_, Int.tmod_nonneg _, tmod_nonpos _⟩
  rw [Int.natAbs_tmod]
  exact Nat.mod_lt _ (Int.natAbs_pos.mpr (toInt_ne_zero hb))

/-- Settles O25: each result evaluated at the corner's operands. -/
theorem divisionCorners : Obligations.DivisionCorners := by
  constructor
  · intro s rd rs1 rs2 _ hb
    exact ⟨_, _, _, _, rfl, .ofEq s rd (by rw [hb, aluDiv_zero]),
      rfl, .ofEq s rd (by rw [hb, aluDivu_zero]), rfl, .ofEq s rd (by rw [hb, aluRem_zero]),
      rfl, .ofEq s rd (by rw [hb, aluRemu_zero])⟩
  · intro s rd rs1 rs2 _ ha hb
    exact ⟨_, _, _, _, rfl, .ofEq s rd (by rw [ha, hb, aluDiv_overflow]),
      rfl, .ofEq s rd (by rw [ha, hb]; rfl), rfl, .ofEq s rd (by rw [ha, hb, aluRem_overflow]),
      rfl, .ofEq s rd (by rw [ha, hb]; rfl)⟩

end Sys2Proof.Machine
end

section
/-!
PROOFS. The step and the run (spec/47_system_halt.md R220, R221; spec/48_execution_loop.md R230 to R242):
what any step of a running machine can do, said once, and from it the halt, the result and the end of
every run.
-/

namespace Sys2Proof.Machine

/-! ## What an executed instruction does to the control fields (R235, R260) -/

/-- `t` is `s` after an instruction retired and the machine runs on: one instruction more is counted and
no other control field changed (R34 to R36, R38, R235). -/
structure Retired (s t : State) : Prop where
  status : t.status = s.status
  report : t.report = s.report
  icount : t.icount = s.icount + 1
  cfg : t.cfg = s.cfg

/-- An executed instruction retired, or was EBREAK, or was an LW or SW whose access failed (R260). -/
theorem Executed.retired_or {i : Instr} {s t : State} (hx : Executed i s t) :
    Retired s t ∨ (i = .ebreak ∧ t = s.halt) ∨
      ∃ c rd rs1 rs2 imm, (i = .lw rd rs1 imm ∨ i = .sw rs1 rs2 imm) ∧
        s.checkAccess (s.effAddr rs1 imm) = some c ∧ t = s.endRun c (some (encode i)) := by
  cases hx with
  | wrote => exact .inl ⟨by simp, by simp, by simp, by simp⟩
  | moved => exact .inl ⟨rfl, rfl, rfl, rfl⟩
  | stored => exact .inl ⟨rfl, rfl, rfl, rfl⟩
  | faulted c rd rs1 rs2 imm hi ha => exact .inr (.inr ⟨c, rd, rs1, rs2, imm, hi, ha, rfl⟩)
  | halted hi => exact .inr (.inl ⟨hi, rfl⟩)

/-! ## What a step of a running machine can do (R230, R239) -/

/-- The causes that end a run, with the condition and the word each reports: the table of R255. -/
inductive State.StopCause (s : State) : Condition → Option Word → Prop where
  /-- the budget is used up (R254) -/
  | budget (hb : s.cfg.budget ≤ s.icount) : State.StopCause s .budgetExceeded none
  /-- the pc fails the access check (R252, R253) -/
  | fetch {c : Condition} (ha : s.checkAccess s.pc = some c) : State.StopCause s c none
  /-- the fetched word is no instruction (R251) -/
  | decode (hd : ∀ i, decode s.cfg.mEnabled (Memory.wordAt s.mem s.pc.toNat) ≠ .instr i) :
      State.StopCause s .decodeFault (some (Memory.wordAt s.mem s.pc.toNat))
  /-- the data address of a fetched LW or SW fails the access check (R252, R253) -/
  | data {c : Condition} {i : Instr} {rd rs1 rs2 : Reg} {imm : BitVec 12}
      (hd : decode s.cfg.mEnabled (Memory.wordAt s.mem s.pc.toNat) = .instr i)
      (hi : i = .lw rd rs1 imm ∨ i = .sw rs1 rs2 imm)
      (ha : s.checkAccess (s.effAddr rs1 imm) = some c) :
      State.StopCause s c (some (Memory.wordAt s.mem s.pc.toNat))

/-- What a step of a running machine did: an instruction retired within the budget, EBREAK halted the
machine, or a cause of R255 ended the run. -/
inductive Stepped (s : State) : State → Prop where
  | retired {t : State} (hb : s.icount < s.cfg.budget) (ht : Retired s t) : Stepped s t
  | halted : Stepped s s.halt
  | stopped {c : Condition} {w : Option Word} (hc : s.StopCause c w) : Stepped s (s.endRun c w)

/-- The execution of the instruction at the pc. The word a fault reports, the instruction's encoding, is
the fetched word (log 6). -/
theorem Executed.stepped {i : Instr} {s t : State} (hb : s.icount < s.cfg.budget)
    (hd : decode s.cfg.mEnabled (Memory.wordAt s.mem s.pc.toNat) = .instr i)
    (hx : Executed i s t) : Stepped s t := by
  rcases hx.retired_or with ht | ⟨-, rfl⟩ | ⟨c, rd, rs1, rs2, imm, hi, ha, rfl⟩
  · exact .retired hb ht
  · exact .halted
  · obtain ⟨hword, -⟩ := encode_of_decode hd
    rw [hword]
    exact .stopped (.data hd hi ha)

/-- A running machine always steps (R230). -/
theorem step_total {s : State} (hr : s.status = .running) : ∃ t, step s = .next t ∧ Stepped s t := by
  rcases s.fetchNext_cases with
    ⟨hb, hf⟩ | ⟨-, c, ha, hf⟩ | ⟨-, -, ⟨why, hd⟩, hf⟩ | ⟨hb, -, i, hd, hf⟩
  · exact ⟨_, step_of_stops hr hf, .stopped (.budget hb)⟩
  · exact ⟨_, step_of_stops hr hf, .stopped (.fetch ha)⟩
  · exact ⟨_, step_of_stops hr hf, .stopped (.decode fun i h => by cases hd.symm.trans h)⟩
  · obtain ⟨t, ht, hx⟩ := exec_cases i s
    exact ⟨t, (step_of_instr hr hf).trans ht, hx.stepped hb hd⟩

/-- A step that answers a next state: the machine was running, and one of the three happened. -/
theorem step_cases {s t : State} (h : step s = .next t) : s.status = .running ∧ Stepped s t := by
  obtain ⟨hr, -⟩ := step_inv h
  obtain ⟨u, hu, hx⟩ := step_total hr
  cases hu.symm.trans h
  exact ⟨hr, hx⟩

/-- The two statuses a condition gives the run (R255). -/
theorem Condition.endStatus_cases (c : Condition) :
    c.endStatus = .faulted ∨ c.endStatus = .budgetExceeded := by
  cases c <;> simp [Condition.endStatus]

/-- Settles O35: `Stepped`, case by case. -/
theorem everyStepRetiresOrEnds : Obligations.EveryStepRetiresOrEnds := by
  intro s hr
  obtain ⟨t, hstep, hx⟩ := step_total hr
  refine ⟨t, hstep, ?_⟩
  cases hx with
  | retired _ ht => exact ⟨ht.cfg, .inl ⟨ht.status.trans hr, ht.icount, ht.report⟩⟩
  | halted => exact ⟨rfl, .inr (.inl ⟨rfl, rfl, rfl, rfl⟩)⟩
  | @stopped c w =>
    refine ⟨rfl, .inr (.inr ?_)⟩
    rcases c.endStatus_cases with hc | hc
    · exact .inl ⟨hc, rfl, rfl⟩
    · exact .inr ⟨hc, rfl, rfl⟩

/-- Settles O28: the word given by its bytes is the fetched word. -/
theorem stepRunsTheDecodedInstruction : Obligations.StepRunsTheDecodedInstruction := by
  intro s w i hr hb halign hsize hw hd
  rw [hw, ← Memory.wordAt_eq_ofNat] at hd
  exact step_of_decode hr hb (State.checkAccess_eq_none.2 ⟨halign, hsize⟩) hd

/-! ## A machine that has ended (R34, R221) -/

/-- Only a running machine steps. -/
theorem step_ne_next_of_ended {s : State} (h : s.Ended) (t : State) : step s ≠ .next t :=
  fun hstep => h (step_inv hstep).1

/-- Running a machine that has ended changes nothing, whatever the bound. -/
theorem State.runFor_of_ended {s : State} (h : s.Ended) (k : Nat) : s.runFor k = s := by
  cases k with
  | zero => rfl
  | succ k =>
    unfold State.runFor
    split
    next hr => exact absurd hr h
    all_goals rfl

/-- Settles O36: `step_ne_next_of_ended` and `State.runFor_of_ended`. -/
theorem endedMachineTakesNoStep : Obligations.EndedMachineTakesNoStep := fun _ h =>
  ⟨step_ne_next_of_ended h, State.runFor_of_ended h _⟩

/-! ## The halt and the result (R220, R242) -/

/-- With the budget used up the machine fetches nothing (R231). -/
theorem step_of_budget {s : State} (hr : s.status = .running) (hb : s.cfg.budget ≤ s.icount) :
    step s = .next (s.endRun .budgetExceeded none) :=
  step_of_stops hr (by simp only [State.fetchNext, if_pos hb])

/-- Settles O26: the word by the two directions of the round trip, the freeze by `State.halt`. -/
theorem ebreakHalts : Obligations.EbreakHalts := by
  refine ⟨fun m w => ⟨fun h => ?word, ?row⟩, fun s => ?halt, fun s hr hb => ?budget⟩
  case word =>
    obtain ⟨hw, -⟩ := encode_of_decode h
    exact hw.symm
  case row =>
    rintro rfl
    exact decode_encode (i := .ebreak) rfl rfl
  case halt =>
    have hended : s.halt.Ended := by simp
    exact ⟨s.halt, rfl, rfl, rfl, fun _ => rfl, fun _ => rfl, rfl, rfl, rfl,
      step_ne_next_of_ended hended⟩
  case budget => exact ⟨_, step_of_budget hr hb.ge, StopsWith.ofEndRun s _ _⟩

/-- A step that leaves the machine halted is the halt (R220). -/
theorem step_eq_halt {s t : State} (h : step s = .next t) (ht : t.status = .halted) : t = s.halt := by
  obtain ⟨hr, hx⟩ := step_cases h
  cases hx with
  | retired _ hret => rw [hret.status, hr] at ht; cases ht
  | halted => rfl
  | @stopped c => exact absurd ht c.endStatus_ne_halted

/-- Settles O27: the halt leaves `x[10]` as it was. -/
theorem resultIsRegisterTen : Obligations.ResultIsRegisterTen := by
  constructor
  · intro s t h ht
    rw [step_eq_halt h ht]
    rfl
  · intro s hs
    exact if_neg hs

/-! ## The end of every run (R231, R236) -/

/-- A run of a running machine goes on from its step. -/
theorem State.runFor_succ_of_step {s t : State} (hr : s.status = .running) (h : step s = .next t)
    (k : Nat) : s.runFor (k + 1) = t.runFor k := by
  simp only [State.runFor, hr, h]

/-- A run of the host's machine goes on from the model's step. -/
theorem core_run_succ_of_step {s t : State} (h : step s = .next t) (k : Nat) :
    Host.Core.run core (k + 1) s = Host.Core.run core k t := by
  have hcore : core.step s = .next t := h
  simp only [Host.Core.run, hcore]

/-- The state a bounded run gives is reached by steps, no more than the bound. -/
theorem core_run_eq_runFor (k : Nat) (s : State) :
    ∃ j, j ≤ k ∧ Host.Core.run core j s = .next (s.runFor k) := by
  induction k generalizing s with
  | zero => exact ⟨0, Nat.le_refl 0, rfl⟩
  | succ k ih =>
    by_cases hr : s.status = .running
    · obtain ⟨t, hstep, -⟩ := step_total hr
      obtain ⟨j, hj, hrun⟩ := ih t
      exact ⟨j + 1, Nat.succ_le_succ hj,
        by rw [State.runFor_succ_of_step hr hstep, core_run_succ_of_step hstep, hrun]⟩
    · exact ⟨0, Nat.zero_le _, by rw [State.runFor_of_ended hr]; rfl⟩

/-- A run whose bound exceeds the budget left has ended: every step that does not end it uses one unit
of the budget. -/
theorem State.runFor_ended {k : Nat} {s : State} (hk : s.cfg.budget - s.icount < k) :
    (s.runFor k).Ended := by
  induction k generalizing s with
  | zero => exact absurd hk (Nat.not_lt_zero _)
  | succ k ih =>
    by_cases hr : s.status = .running
    · obtain ⟨t, hstep, hx⟩ := step_total hr
      rw [State.runFor_succ_of_step hr hstep]
      cases hx with
      | retired hb ht => exact ih (by rw [ht.cfg, ht.icount]; omega)
      | halted =>
        have hended : s.halt.Ended := by simp
        rwa [State.runFor_of_ended hended]
      | @stopped c w =>
        have hended : (s.endRun c w).Ended := c.endStatus_ne_running
        rwa [State.runFor_of_ended hended]
    · rwa [State.runFor_of_ended hr]

/-- Settles O37: the bound of `State.run` exceeds the budget left by one. -/
theorem everyRunEnds : Obligations.EveryRunEnds := by
  intro s _
  obtain ⟨k, hk, hrun⟩ := core_run_eq_runFor (s.cfg.budget - s.icount + 1) s
  exact ⟨k, hk, hrun, State.runFor_ended (Nat.lt_succ_self _)⟩

end Sys2Proof.Machine
end

section
/-!
PROOFS. The conditions (spec/60_exceptions.md R250 to R261): the cause and the report of each, the
precision of the step that takes one, and the instructions that raise none.
-/

namespace Sys2Proof.Machine

/-! ## Reports an instruction writes (R254, R260) -/

/-- A report left by an instruction stood there before, or is one of a memory fault (R260). -/
theorem exec_report_cases {i : Instr} {s t : State} {r : Report} (h : exec i s = .next t)
    (hr : t.report = some r) :
    t.report = s.report ∨ r.condition = .alignmentFault ∨ r.condition = .outOfBoundsFault := by
  rcases (exec_inv h).retired_or with ht | ⟨-, rfl⟩ | ⟨c, rd, rs1, rs2, imm, -, ha, rfl⟩
  · exact .inl ht.report
  · exact .inl rfl
  · cases hr
    rcases State.checkAccess_eq_some.1 ha with ⟨-, hc⟩ | ⟨-, -, hc⟩
    · exact .inr (.inl hc)
    · exact .inr (.inr hc)

/-- Settles O29: the budget is checked before the fetch, and no memory fault is BudgetExceeded. -/
theorem budgetExceededRule : Obligations.BudgetExceededRule := by
  constructor
  · intro s hr hb
    exact ⟨_, step_of_budget hr hb, StopsWith.ofEndRun s _ _⟩
  · intro i s t rpc w h hreport
    exact (exec_report_cases h hreport).resolve_right (by simp)

/-- Settles O30: a word no row accepts is refused by the decoder, which is the table; and no memory
fault is DecodeFault. -/
theorem decodeFaultRule : Obligations.DecodeFaultRule := by
  constructor
  · intro s hr hb halign hsize hno
    obtain ⟨-, -, htable⟩ := decoderIsTheTable
    obtain ⟨-, hrefuse⟩ := htable s.cfg.mEnabled (Memory.wordAt s.mem s.pc.toNat)
    obtain ⟨why, hd⟩ := hrefuse hno
    exact ⟨_, step_of_decodeFault hr hb (State.checkAccess_eq_none.2 ⟨halign, hsize⟩) hd,
      StopsWith.ofEndRun s _ _⟩
  · intro i s t rpc w h hreport
    exact (exec_report_cases h hreport).resolve_right (by simp)

/-! ## The memory faults (R252, R253) -/

/-- A fetch that fails the access check ends the run with no word (R232, R255). -/
theorem step_stops_of_fetchFault {s : State} {c : Condition} (hr : s.status = .running)
    (hb : s.icount < s.cfg.budget) (ha : s.checkAccess s.pc = some c) :
    ∃ t, step s = .next t ∧ StopsWith s t c none :=
  ⟨_, step_of_stops hr (State.fetchNext_of_checkAccess_some hb ha), StopsWith.ofEndRun s c none⟩

/-- A fetched LW or SW whose data address fails the access check ends the run with the fetched word
(R160, R255). -/
theorem step_stops_of_dataFault {s : State} {i : Instr} {rd rs1 rs2 : Reg} {imm : BitVec 12}
    {c : Condition} (hr : s.status = .running) (hb : s.icount < s.cfg.budget)
    (hpc : s.checkAccess s.pc = none)
    (hd : decode s.cfg.mEnabled (Memory.wordAt s.mem s.pc.toNat) = .instr i)
    (hi : i = .lw rd rs1 imm ∨ i = .sw rs1 rs2 imm)
    (ha : s.checkAccess (s.effAddr rs1 imm) = some c) :
    ∃ t, step s = .next t ∧ StopsWith s t c (some (Memory.wordAt s.mem s.pc.toNat)) := by
  obtain ⟨hword, -⟩ := encode_of_decode hd
  rw [step_of_decode hr hb hpc hd, ← hword]
  rcases hi with rfl | rfl
  · exact ⟨_, exec_lw_of_checkAccess_some ha, StopsWith.ofEndRun s c _⟩
  · exact ⟨_, exec_sw_of_checkAccess_some ha, StopsWith.ofEndRun s c _⟩

theorem State.checkAccess_of_misaligned {s : State} {a : Word} (h : a.toNat % 4 ≠ 0) :
    s.checkAccess a = some .alignmentFault :=
  State.checkAccess_eq_some.2 (.inl ⟨h, rfl⟩)

theorem State.checkAccess_of_outside {s : State} {a : Word} (h : a.toNat % 4 = 0)
    (hout : s.cfg.memSize < a.toNat + 4) : s.checkAccess a = some .outOfBoundsFault :=
  State.checkAccess_eq_some.2 (.inr ⟨h, hout, rfl⟩)

/-- Settles O31: the check of a misaligned address, in the fetch and in the data access. -/
theorem alignmentFaultRule : Obligations.AlignmentFaultRule := by
  constructor
  · intro s hr hb hmis
    exact step_stops_of_fetchFault hr hb (State.checkAccess_of_misaligned hmis)
  · rintro s w i rd rs1 rs2 imm hr hb halign hsize rfl hd hi hmis
    exact step_stops_of_dataFault hr hb (State.checkAccess_eq_none.2 ⟨halign, hsize⟩) hd hi
      (State.checkAccess_of_misaligned hmis)

/-- Settles O32: the check of an aligned address outside memory, in the fetch and in the data access. -/
theorem outOfBoundsFaultRule : Obligations.OutOfBoundsFaultRule := by
  constructor
  · intro s hr hb halign hout
    exact step_stops_of_fetchFault hr hb (State.checkAccess_of_outside halign hout)
  · rintro s w i rd rs1 rs2 imm hr hb halign hsize rfl hd hi hea hout
    exact step_stops_of_dataFault hr hb (State.checkAccess_eq_none.2 ⟨halign, hsize⟩) hd hi
      (State.checkAccess_of_outside hea hout)

/-! ## The step that ends a run (R255, R256) -/

/-- A step that leaves the machine faulted or out of budget took a condition, for one of its causes. -/
theorem step_eq_endRun {s t : State} (h : step s = .next t)
    (ht : t.status = .faulted ∨ t.status = .budgetExceeded) :
    ∃ c w, t = s.endRun c w ∧ s.StopCause c w := by
  obtain ⟨hr, hx⟩ := step_cases h
  cases hx with
  | retired _ hret => simp [hret.status, hr] at ht
  | halted => simp at ht
  | @stopped c w hc => exact ⟨c, w, rfl, hc⟩

/-- Settles O34: the frame by `State.endRun`, and the six rows by `State.StopCause`, whose two memory
accesses fail in two ways each. -/
theorem endingStepsArePrecise : Obligations.EndingStepsArePrecise := by
  intro s t h ht
  obtain ⟨c, w, rfl, hc⟩ := step_eq_endRun h ht
  refine ⟨c, w, StopsWith.ofEndRun s c w, step_ne_next_of_ended c.endStatus_ne_running, ?_⟩
  cases hc with
  | budget hb => exact .inl ⟨rfl, rfl, hb⟩
  | fetch ha =>
    rcases State.checkAccess_eq_some.1 ha with ⟨hmis, hc⟩ | ⟨halign, hout, hc⟩
    · exact .inr (.inl ⟨hc, rfl, hmis⟩)
    · exact .inr (.inr (.inl ⟨hc, rfl, halign, hout⟩))
  | decode hd => exact .inr (.inr (.inr (.inl ⟨rfl, rfl, hd⟩)))
  | @data _ i rd rs1 rs2 imm hd hi ha =>
    refine .inr (.inr (.inr (.inr ⟨rfl, i, rd, rs1, rs2, imm, hd, hi, ?_⟩)))
    rcases State.checkAccess_eq_some.1 ha with ⟨hmis, hc⟩ | ⟨halign, hout, hc⟩
    · exact .inl ⟨hc, hmis⟩
    · exact .inr ⟨hc, halign, hout⟩

/-! ## Instructions that raise no condition (R260, R261) -/

/-- Every instruction but LW, SW and EBREAK retires from every state (R260). -/
theorem exec_retired {i : Instr} (s : State) (hl : isLoad i = false) (hs : isStore i = false)
    (he : i ≠ .ebreak) : ∃ t, exec i s = .next t ∧ Retired s t := by
  obtain ⟨t, ht, hx⟩ := exec_cases i s
  refine ⟨t, ht, ?_⟩
  rcases hx.retired_or with hret | ⟨hi, -⟩ | ⟨_, _, _, _, _, rfl | rfl, -⟩
  · exact hret
  · exact absurd hi he
  · cases hl
  · cases hs

/-- Settles O45: EBREAK halts, and the others retire by `exec_retired`. -/
theorem onlyLoadsAndStoresFault : Obligations.OnlyLoadsAndStoresFault := by
  intro i s hl hs
  by_cases he : i = .ebreak
  · subst he
    exact ⟨s.halt, rfl, rfl, rfl, .inl ⟨rfl, rfl⟩⟩
  · obtain ⟨t, ht, hret⟩ := exec_retired s hl hs he
    exact ⟨t, ht, hret.report, hret.icount, .inr ⟨he, hret.status⟩⟩

/-- A branch or jump is none of the instructions that can end a run. -/
theorem isTransfer_cases {i : Instr} (h : isTransfer i = true) :
    isLoad i = false ∧ isStore i = false ∧ i ≠ .ebreak := by
  cases i
  case beq | bne | blt | bge | bltu | bgeu | jal | jalr => exact ⟨rfl, rfl, by simp⟩
  all_goals cases h

/-- Settles O46: a transfer retires, and the machine it leaves fetches at the target. -/
theorem targetsAreCheckedByTheNextFetch : Obligations.TargetsAreCheckedByTheNextFetch := by
  intro i s hi hr hb
  obtain ⟨hl, hs, he⟩ := isTransfer_cases hi
  obtain ⟨t, ht, hret⟩ := exec_retired s hl hs he
  have hrun : t.status = .running := hret.status.trans hr
  have hbudget : t.icount < t.cfg.budget := by rwa [hret.icount, hret.cfg]
  refine ⟨t, ht, hrun, hret.icount, fun hmis => ?_, fun halign hout => ?_⟩
  · exact step_stops_of_fetchFault hrun hbudget (State.checkAccess_of_misaligned hmis)
  · exact step_stops_of_fetchFault hrun hbudget
      (State.checkAccess_of_outside halign (by rwa [hret.cfg]))

end Sys2Proof.Machine
end

section
/-!
PROOFS. The reset (spec/70_reset_and_hazards.md R280, R281): the machine starts in the invariant that
every step keeps.
-/

namespace Sys2Proof.Machine

/-- A construction from a configuration in range and a canonical image inside memory meets the
invariant (R43, R280). -/
theorem State.Inv.ofResetWith {c : Config} {image : Memory} (hc : c.Valid) (hm : Memory.Wf image)
    (hin : ∀ x ∈ image, x.1 < c.memSize) : (State.resetWith c image).Inv where
  cfg := hc
  mem := hm
  inside := hin
  zero := rfl
  count := Nat.zero_le _
  report := (State.reportAgrees_of_running (s := State.resetWith c image) rfl).2 rfl

/-- Settles O39: `State.reset` is the construction from `Config.chosen` and the image with nothing
listed. -/
theorem resetMeetsInvariant : Obligations.ResetMeetsInvariant :=
  ⟨fun _ _ => State.Inv.ofResetWith,
    State.Inv.ofResetWith (Nat.le_refl _) Memory.wf_nil (by simp)⟩

end Sys2Proof.Machine
end
